-- ==== Sys2Proof/Word.lean ====
section
/-! DEFINITION. The word types of the PXC (00_scope.md R7, R8). -/

namespace Sys2Proof

/-- XLEN_REG and LEN_W: every host-visible register, length, capacity, count, index and result is 32 bits (R7). -/
abbrev Word := BitVec 32

/-- One BUF cell's value, and one RGB888 channel: 8 bits (R8, R50). -/
abbrev Byte := BitVec 8

/-- RGB565Value: 16 bits (R8). -/
abbrev Pixel := BitVec 16

end Sys2Proof
end

