-- ==== Sys2Proof/Syntax.lean ====
section
/-! DEFINITION. The commands: one constructor per row of spec/opcode_table.json (30_encoding.md R94). -/

namespace Sys2Proof

/-- A command. Only QPIX carries operands in its word (R92, R97); the other four take them all from the latched
operand registers (R93, R98). A word that selects no row is no command (R95): the decoder rejects it. -/
inductive Instr where
  /-- QPIX, opcode 0x01: quantize the pixel (r, g, b) of the command word (R152). -/
  | qpix (r g b : Byte)
  /-- QBUF, word 0x00000002: quantize an RGB888 array (R153). -/
  | qbuf
  /-- ENCODE, word 0x00000003: run-length encode a pixel array (R173). -/
  | encode
  /-- DECODE, word 0x00000004: expand a run-record array (R176). -/
  | decode
  /-- DIFF, word 0x00000005: compare two pixel arrays (R203). -/
  | diff
  deriving DecidableEq, Repr

end Sys2Proof
end

