-- ==== Sys2Proof/Config.lean ====
section
/-! DEFINITION. What an implementation fixes (00_scope.md R7), and the one free value of the model. -/

namespace Sys2Proof

/-- The parameters the spec marks OPEN (R7): "A model takes each one marked OPEN as an argument".
They stand in State as plain data that no step changes (log 1). -/
structure Params where
  /-- BUF address width in bits, an integer in [4, 31]. -/
  bufAw : Nat
  /-- Host address of the register window. -/
  regBase : Nat
  /-- Host address of the BUF window. -/
  bufBase : Nat
  deriving DecidableEq, Repr

/-- BUF_BYTES = 2^BUF_AW (R7). -/
def Params.bufBytes (p : Params) : Nat := 2 ^ p.bufAw

/-- Size of the register window in bytes (R20). -/
def regWindowBytes : Nat := 0x100

/-- The parameter values of State.reset (log 1, DESIGN CHOICE): BUF_AW = 16, the value the spec's test vectors use. -/
def Params.standard : Params := { bufAw := 16, regBase := 0, bufBase := 0x10000 }

/-- FREE VALUE (R271, U11; log 3): how many host steps come between the n-th acceptance and its engine step.
No body: nothing in Lean can prove a value of it. -/
opaque Config.engineDelay : Nat → Nat

end Sys2Proof
end

