-- ==== Sys2Proof/WellFormed.lean ====
section
/-! DEFINITION. Which commands and which parameters are well formed. -/

namespace Sys2Proof

/-- Every command is well formed: QPIX's channels are "already bounded to 8 bits by type" and every value of bits
31:8 is legal for it (R92, R152); the others carry no operand (R93). -/
def Instr.wf : Instr → Bool
  | .qpix _ _ _ => true
  | .qbuf => true
  | .encode => true
  | .decode => true
  | .diff => true

/-- The two host windows share no address (R60 lists them as two address spaces; log 2, DEDUCED). -/
abbrev Params.windowsApart (p : Params) : Prop :=
  p.regBase + regWindowBytes ≤ p.bufBase ∨ p.bufBase + p.bufBytes ≤ p.regBase

/-- BUF_AW is "integer in [4, 31]" (R7), and the windows are apart. -/
abbrev Params.wf (p : Params) : Prop :=
  4 ≤ p.bufAw ∧ p.bufAw ≤ 31 ∧ p.windowsApart

end Sys2Proof
end

