-- ==== Sys2Proof/Decode.lean ====
section
/-! DEFINITION. The decoder of command words and the encoder (30_encoding.md R90 to R97, 40_command_cycle.md R124).
A command word comes from the CMD write itself, never from BUF (R79), so the decoder reads the 32-bit value; every
command is exactly 32 bits (R96). -/

namespace Sys2Proof

/-- Why a word is no command (R95). Each ends in ILLEGAL_CMD when the word is accepted. -/
inductive DecodeError where
  /-- OPC = 0x00 or OPC in 0x06 .. 0xFF. -/
  | unusedOpcode
  /-- OPC in 0x02 .. 0x05 with cmd[31:8] != 0 (R93). -/
  | nonzeroUpperBits
  deriving DecidableEq, Repr

/-- OPC = cmd[7:0] (R90, R91). -/
def opcodeField (cmd : Word) : BitVec 8 := cmd.extractLsb' 0 8

/-- P0 = cmd[15:8], QPIX's blue channel (R90, R92). -/
def p0Field (cmd : Word) : Byte := cmd.extractLsb' 8 8

/-- P1 = cmd[23:16], QPIX's green channel (R90, R92). -/
def p1Field (cmd : Word) : Byte := cmd.extractLsb' 16 8

/-- P2 = cmd[31:24], QPIX's red channel (R90, R92). -/
def p2Field (cmd : Word) : Byte := cmd.extractLsb' 24 8

/-- A command without immediates is legal only with cmd[31:8] = 0 (R93). -/
def requireUpperZero (cmd : Word) (i : Instr) : Except DecodeError Instr :=
  if cmd.extractLsb' 8 24 = 0#24 then .ok i else .error .nonzeroUpperBits

/-- The opcode alone selects the row (R91, R94); every 32-bit value decodes or is rejected by name (R95). -/
def decode (cmd : Word) : Except DecodeError Instr :=
  if opcodeField cmd = 0x01#8 then .ok (.qpix (p2Field cmd) (p1Field cmd) (p0Field cmd))
  else if opcodeField cmd = 0x02#8 then requireUpperZero cmd .qbuf
  else if opcodeField cmd = 0x03#8 then requireUpperZero cmd .encode
  else if opcodeField cmd = 0x04#8 then requireUpperZero cmd .decode
  else if opcodeField cmd = 0x05#8 then requireUpperZero cmd .diff
  else .error .unusedOpcode

/-- The word of a command: the P2, P1, P0, OPC fields of R90 with the opcodes of R94. -/
def encode : Instr → Word
  | .qpix r g b => r ++ g ++ b ++ 0x01#8
  | .qbuf => 0x00000002#32
  | .encode => 0x00000003#32
  | .decode => 0x00000004#32
  | .diff => 0x00000005#32

/-- What the decoder reads from a table row's bits: the 32-bit word is the CMD register's value, so bit 0 of the
table is bit 0 of the word; bits above `nbits` are zero. -/
def decodeTableWord (nbits w : Nat) : Option Instr :=
  match decode (BitVec.ofNat 32 (w % 2 ^ nbits)) with
  | .ok i => some i
  | .error _ => none

end Sys2Proof
end

