-- ==== Sys2Proof/Machine/Script.lean ====
section
/-! DEFINITION. The host's steps (00_scope.md R16) and the host-script notation (30_encoding.md R106, R107):
register names and offsets (10_state.md R21), the places a host can access, and the notation's expansions. -/

namespace Sys2Proof.Machine

/-- The named registers of the register window (R21). -/
inductive Reg where
  | id | cfg | ctrl | status | cmd | srcA | srcB | dst | lenA | lenB | dstCap | result | errInfo
  deriving DecidableEq, Repr

/-- Offset of a register in the window (R21). -/
def Reg.offset : Reg → Nat
  | .id => 0x00
  | .cfg => 0x04
  | .ctrl => 0x08
  | .status => 0x0C
  | .cmd => 0x10
  | .srcA => 0x14
  | .srcB => 0x18
  | .dst => 0x1C
  | .lenA => 0x20
  | .lenB => 0x24
  | .dstCap => 0x28
  | .result => 0x2C
  | .errInfo => 0x30

/-- The register at a word offset; offsets 0x34 to 0xFC are reserved and name none (R21, R22). -/
def regAt (off : Nat) : Option Reg :=
  [Reg.id, .cfg, .ctrl, .status, .cmd, .srcA, .srcB, .dst, .lenA, .lenB, .dstCap, .result, .errInfo].find?
    fun r => r.offset == off

/-- What a host access addresses: an offset of the register window, a BUF address, or an address of the host's own
address space, which R60 maps to one of the two windows. -/
inductive Place where
  | reg (off : Nat)
  | buf (a : Nat)
  | bus (addr : Nat)
  deriving DecidableEq, Repr

/-- A host step: "one register read or write, one BUF read or write, or a reset" (R16). Width is in bytes; a write
carries its value in the low `8 * width` bits (log 10). `wait` is the notation's WAIT loop (R107): each time it is
taken the host reads STATUS once, and it stays in the script while BUSY reads 1 (log 14). -/
inductive HostStep where
  | read (p : Place) (width : Nat)
  | write (p : Place) (width : Nat) (v : Word)
  | wait
  | reset
  deriving DecidableEq, Repr

/-! ## The notation of R106, one host step a line -/

/-- `WR <REG>, <imm32>`. -/
def wr (r : Reg) (v : Word) : HostStep := .write (.reg r.offset) 4 v

/-- `RD <REG>`. -/
def rd (r : Reg) : HostStep := .read (.reg r.offset) 4

/-- `QPIX <r>, <g>, <b>`, `QBUF`, `ENCODE`, `DECODE` and `DIFF`: a write of the command's word to CMD. -/
def command (i : Instr) : HostStep := wr .cmd (encode i)

/-- `W8 <addr>, <imm>`. -/
def w8 (a : Nat) (v : Byte) : HostStep := .write (.buf a) 1 (v.setWidth 32)

/-- `W16 <addr>, <imm>`. -/
def w16 (a : Nat) (v : BitVec 16) : HostStep := .write (.buf a) 2 (v.setWidth 32)

/-- `W32 <addr>, <imm>`. -/
def w32 (a : Nat) (v : Word) : HostStep := .write (.buf a) 4 v

/-- `R8 <addr>`. -/
def r8 (a : Nat) : HostStep := .read (.buf a) 1

/-- `R16 <addr>`. -/
def r16 (a : Nat) : HostStep := .read (.buf a) 2

/-- `R32 <addr>`. -/
def r32 (a : Nat) : HostStep := .read (.buf a) 4

/-! ## The pseudo-instructions of R107 -/

/-- `ACK`: clears DONE and CMDOVR. -/
def ackOutcome : HostStep := wr .status 0x00000006#32

/-- `SETUP a, la, b, lb, d, cap`. -/
def setup (a la b lb d cap : Word) : List HostStep :=
  [wr .srcA a, wr .lenA la, wr .srcB b, wr .lenB lb, wr .dst d, wr .dstCap cap]

/-- `FILL16 addr, [v0, ..., vk]`. -/
def fill16 : Nat → List (BitVec 16) → List HostStep
  | _, [] => []
  | a, v :: vs => w16 a v :: fill16 (a + 2) vs

/-- `RUN addr, value, count`: one run record (R102). -/
def runRecord (a : Nat) (value : BitVec 16) (count : Word) : List HostStep :=
  [w16 a value, w16 (a + 2) 0x0000#16, w32 (a + 4) count]

end Sys2Proof.Machine
end

