-- ==== Sys2Proof/Machine/State.lean ====
section
/-! DEFINITION. The state of the PXC (10_state.md R53), the host's side of it (00_scope.md R16, 20_memory.md R74),
and the reasons a step can stop (60_exceptions.md R232). -/

namespace Sys2Proof.Machine

/-- Model-fault reasons (R232). A model fault stands for a behaviour of the chip that the spec leaves unspecified. -/
inductive Fault where
  /-- UNINIT_READ: raised by a command (R135) or a host read (R65) of a BUF cell unwritten since reset. Safe. -/
  | uninitRead
  /-- HOST_RACE: raised by a host access to the BUF window while BUSY = 1 (R66). Safe. -/
  | hostRace
  /-- HOST_MISALIGNED: raised by a host BUF access at an address that is no multiple of its width (R65). Safe. -/
  | hostMisaligned
  /-- HOST_WIDTH: raised by a host BUF access of a width other than 1, 2 or 4 bytes, or a register access that is
  not an aligned 32-bit access (R65, R67). Safe. -/
  | hostWidth
  /-- The model's own reason: raised by a host access to an address in neither window, since beside the two windows
  "nothing else is addressable" (R60; log 6, DESIGN CHOICE). Safe. -/
  | hostUnmapped
  deriving DecidableEq, Repr

/-- Reasons to give no meaning. `step` answers none (the statement StepNeverRefuses). -/
inductive Refusal where
  /-- Raised by an arm of `exec` for a command without a meaning yet (none in this model). Safe. -/
  | notModelled (mnemonic : String)
  /-- Raised by `exec` at a state where the engine step is not enabled because PENDING is empty (R130; log 8,
  DESIGN CHOICE): there is no command to carry out. `step` never gets here. Safe. -/
  | engineIdle
  deriving DecidableEq, Repr

/-- The errors a command can complete with (R105). Success is no error, and the reserved codes are never raised
(R223, R229). -/
inductive ErrorName where
  | invalidRun | lengthMismatch | illegalCmd | range | align | overlap | capacity
  deriving DecidableEq, Repr

/-- `raise <Error>(info)` (R10): the error and its detail value. -/
structure CmdError where
  name : ErrorName
  info : Word
  deriving DecidableEq, Repr

/-- The six operand registers (R23, R34 to R39). -/
structure OperandRegs where
  srcA : Word
  srcB : Word
  dst : Word
  lenA : Word
  lenB : Word
  dstCap : Word
  deriving DecidableEq, Repr

/-- What PENDING holds when it is not empty: the command word and the operands latched at acceptance (R46, R120). -/
structure Pending where
  cmd : Word
  op : OperandRegs
  deriving DecidableEq, Repr

/-- The written cells of BUF (R50): (address, value), addresses strictly rising. An address that is not listed is
unwritten and reads as no value, so no listed cell could equal what an unlisted address reads as (log 11). -/
abbrev Memory := List Host.Cell

/-- The canonical form of BUF. -/
abbrev Memory.wf (m : Memory) : Prop := m.Pairwise fun x y => x.1 < y.1

/-- The host's side: the model's own fields, no state of the PXC (log 3, log 4). -/
structure HostSide where
  /-- The host steps not yet taken, in order (R74). -/
  script : List HostStep
  /-- How many host steps come before the pending command's engine step (R271). -/
  delay : Nat
  /-- Delays the run's input fixes for the next acceptances; when empty, the delay is the free value. -/
  timing : List Nat
  /-- How many acceptances there have been: what the free value `Config.engineDelay` is applied to. -/
  draws : Nat
  /-- The values the host's reads returned, newest first. -/
  readLog : List Word
  deriving DecidableEq, Repr

/-- R53: the state of the PXC model, with its parameters (R7) and the host's side. -/
structure State where
  /-- BUF_AW, REG_BASE, BUF_BASE (R7): no step changes them. -/
  params : Params
  /-- CTRL.IE (R26). -/
  ie : Bool
  /-- STATUS.DONE (R29). -/
  done : Bool
  /-- STATUS.CMDOVR (R30). -/
  cmdovr : Bool
  /-- STATUS.ERR (R31). -/
  err : BitVec 4
  /-- SRC_A, SRC_B, DST, LEN_A, LEN_B, DST_CAP. -/
  ops : OperandRegs
  /-- RESULT (R40). -/
  result : Word
  /-- ERR_INFO (R41). -/
  errInfo : Word
  /-- PENDING (R46). -/
  pending : Option Pending
  /-- BUF (R50). -/
  buf : Memory
  /-- FAULT (R52). -/
  fault : Option Fault
  /-- The host's side. -/
  env : HostSide
  deriving DecidableEq, Repr

/-- How a step, or a command's meaning, ends. -/
abbrev Result := Host.Outcome State Fault Refusal

/-- The six operand registers after reset (R250). -/
def OperandRegs.reset : OperandRegs :=
  { srcA := 0#32, srcB := 0#32, dst := 0#32, lenA := 0#32, lenB := 0#32, dstCap := 0#32 }

/-- The host's side at the start: nothing to do, nothing read (log 4, DESIGN CHOICE). -/
def HostSide.start : HostSide := { script := [], delay := 0, timing := [], draws := 0, readLog := [] }

/-- The PXC right after reset (R250 to R253), at the start of a run (R52), with the standard parameters (log 1). -/
def State.reset : State :=
  { params := Params.standard, ie := false, done := false, cmdovr := false, err := 0x0#4, ops := OperandRegs.reset,
    result := 0#32, errInfo := 0#32, pending := none, buf := [], fault := none, env := HostSide.start }

end Sys2Proof.Machine
end

