-- ==== Sys2Proof/Machine/Ops.lean ====
section
/-! DEFINITION. The named operations over BUF (20_memory.md R63), acceptance (40_command_cycle.md R120, R121), the two
completions (R131, R132) and reset (70_reset_and_hazards.md R250). -/

namespace Sys2Proof.Machine

/-! ## BUF -/

/-- The value of the cell at `a`; none when it is unwritten (R50). -/
def Memory.get (m : Memory) (a : Nat) : Option Byte := m.lookup a

/-- Consecutive cells from address `a` on. -/
def cellsFrom : Nat → List Byte → Memory
  | _, [] => []
  | a, b :: bs => (a, b) :: cellsFrom (a + 1) bs

/-- Writes consecutive bytes from address `a` on; every written cell becomes written (R63). -/
def Memory.writeBytes (m : Memory) (a : Nat) (bs : List Byte) : Memory :=
  (m.filter fun c => c.1 < a) ++ cellsFrom a bs ++ (m.filter fun c => a + bs.length ≤ c.1)

/-- The `n` bytes of `v`, least significant first: byte k is v[8k+7:8k] (R62, R63). -/
def leBytes : Nat → Nat → List Byte
  | 0, _ => []
  | n + 1, v => BitVec.ofNat 8 v :: leBytes n (v / 256)

/-- MemRead(addr, n): the little-endian value of n bytes; none when a cell read is unwritten (R63). -/
def memRead (m : Memory) : Nat → Nat → Option Nat
  | _, 0 => some 0
  | a, n + 1 =>
    match m.get a, memRead m (a + 1) n with
    | some b, some v => some (b.toNat + 256 * v)
    | _, _ => none

/-- MemWrite(addr, n, v) (R63). -/
def memWrite (m : Memory) (a n v : Nat) : Memory := m.writeBytes a (leBytes n v)

/-! ## The state's views -/

/-- BUF_BYTES (R7). -/
def State.bufBytes (s : State) : Nat := s.params.bufBytes

/-- STATUS.BUSY = (PENDING != empty) (R28, R53). -/
def State.busy (s : State) : Bool := s.pending.isSome

/-! ## Error codes and completion -/

/-- The 4-bit code of an error (R105). -/
def ErrorName.code : ErrorName → BitVec 4
  | .invalidRun => 0x1#4
  | .lengthMismatch => 0x2#4
  | .illegalCmd => 0x4#4
  | .range => 0x5#4
  | .align => 0x6#4
  | .overlap => 0x7#4
  | .capacity => 0x8#4

/-- Error completion, `raise E(info)` (R131): no BUF cell is written. The PXC's one way to report an error: no mode
changes and nothing else is saved (R233), and no return operation exists (R234). -/
def State.completeError (s : State) (e : CmdError) : State :=
  { s with result := 0#32, errInfo := e.info, err := e.name.code, done := true, pending := none }

/-- Successful completion, `complete_ok(result, writes)` (R132), with BUF as the writes leave it. -/
def State.completeOk (s : State) (result : Word) (buf : Memory) : State :=
  { s with buf := buf, result := result, errInfo := 0#32, err := 0x0#4, done := true, pending := none }

/-- A command's meaning runs where the engine step is enabled (R130): on the pending command's latched copies, and
not in a faulted state (R52). -/
def State.withPending (s : State) (f : Pending → Result) : Result :=
  match s.fault with
  | some r => .fault r
  | none =>
    match s.pending with
    | some p => f p
    | none => .refused .engineIdle

/-! ## Acceptance -/

/-- Draws the delay of the command being accepted: from the run's input, else the free value (R271; log 3). -/
def HostSide.drawDelay (h : HostSide) : HostSide :=
  match h.timing with
  | d :: rest => { h with delay := d, timing := rest, draws := h.draws + 1 }
  | [] => { h with delay := Config.engineDelay h.draws, draws := h.draws + 1 }

/-- Acceptance of the word `w` (R120, R122): all six operand registers are latched and DONE is cleared. -/
def State.accept (s : State) (w : Word) : State :=
  { s with pending := some { cmd := w, op := s.ops }, done := false, env := s.env.drawDelay }

/-- A host write of `w` to CMD: accepted while BUSY = 0 (R120), dropped with CMDOVR set while BUSY = 1 (R121). -/
def State.offer (s : State) (w : Word) : State :=
  if s.busy then { s with cmdovr := true } else s.accept w

/-! ## Reset -/

/-- The reset step (R250 to R252): every register at its reset value, PENDING empty (which cancels a pending command,
R251), every BUF cell unwritten; FAULT unchanged. The parameters and the host's side are no state of the PXC. -/
def State.afterReset (s : State) : State :=
  { State.reset with params := s.params, fault := s.fault, env := s.env }

/-! ## FAULT -/

/-- A model fault sets FAULT and leaves the rest of the state as it was before the step (R232). -/
def State.recordFault (s : State) (r : Fault) : State := { s with fault := some r }

end Sys2Proof.Machine
end

