-- ==== Sys2Proof/Machine/Operands.lean ====
section
/-! DEFINITION. Operand forms (30_encoding.md R98, R99), the engine's element accesses (20_memory.md R69), regions
(R81, R82) and the operand checks (40_command_cycle.md R125 to R129). -/

namespace Sys2Proof.Machine

/-- The element kinds of R99. -/
inductive Elem where
  | rgb888 | pixel | runRecord | diffRecord
  deriving DecidableEq, Repr

/-- esize, in bytes (R99). -/
def Elem.size : Elem → Nat
  | .rgb888 => 3
  | .pixel => 2
  | .runRecord => 8
  | .diffRecord => 12

/-- Required alignment of the base, in bytes (R99). -/
def Elem.align : Elem → Nat
  | .rgb888 => 1
  | .pixel => 2
  | .runRecord => 4
  | .diffRecord => 4

/-- One row entry of R125: the operand's id, element kind, base address and element count. -/
structure Operand where
  id : Nat
  elem : Elem
  base : Nat
  count : Nat
  deriving DecidableEq, Repr

/-- Operand 1: the SRC_A region, LEN_A elements (R125). -/
def OperandRegs.operandA (o : OperandRegs) (e : Elem) : Operand := ⟨1, e, o.srcA.toNat, o.lenA.toNat⟩

/-- Operand 2: the SRC_B region, LEN_B elements (R125). -/
def OperandRegs.operandB (o : OperandRegs) (e : Elem) : Operand := ⟨2, e, o.srcB.toNat, o.lenB.toNat⟩

/-- Operand 3: the DST capacity region, DST_CAP elements (R125). -/
def OperandRegs.operandDst (o : OperandRegs) (e : Elem) : Operand := ⟨3, e, o.dst.toNat, o.dstCap.toNat⟩

/-- Size of the operand's region in bytes: the exact product n * esize (R81). -/
def Operand.bytes (o : Operand) : Nat := o.count * o.elem.size

/-- `base mod align = 0` (R126); checked even when n = 0. -/
def Operand.aligned (o : Operand) : Bool := o.base % o.elem.align == 0

/-- in_range(base, size) (R81), in exact arithmetic. -/
def inRange (bufBytes base size : Nat) : Bool := size == 0 || decide (base + size ≤ bufBytes)

/-- overlap of [a1, a1+s1) and [a2, a2+s2) (R82). -/
def overlap (a1 s1 a2 s2 : Nat) : Bool :=
  decide (0 < s1) && decide (0 < s2) && decide (a1 < a2 + s2) && decide (a2 < a1 + s1)

/-- The first operand, in id order, that fails a check, reported by its id (R126 to R128). -/
def firstBad (name : ErrorName) (good : Operand → Bool) (os : List Operand) : Option CmdError :=
  match os.find? fun o => !good o with
  | some o => some ⟨name, BitVec.ofNat 32 o.id⟩
  | none => none

/-- The checks before any BUF read, in the order of R230: ALIGN for every operand, then RANGE for every operand, then
OVERLAP of the destination with each source. DESIGN CHOICE (log 21): the DST capacity region is checked for RANGE also
when the source is empty, where corner cases of R153 and R173 say that n = 0 succeeds for any DST_CAP. -/
def operandError (bufBytes : Nat) (srcs : List Operand) (dst : Operand) : Option CmdError :=
  match firstBad .align Operand.aligned (srcs ++ [dst]) with
  | some e => some e
  | none =>
    match firstBad .range (fun o => inRange bufBytes o.base o.bytes) (srcs ++ [dst]) with
    | some e => some e
    | none => firstBad .overlap (fun o => !overlap dst.base dst.bytes o.base o.bytes) srcs

/-- CAPACITY with ERR_INFO = min(required, 0xFFFFFFFF) (R129). -/
def capacityError (required : Nat) : CmdError := ⟨.capacity, BitVec.ofNat 32 (min required 0xFFFFFFFF)⟩

/-! ## Element reads -/

/-- The three channel bytes of an RGB888 element at `a`: r at +0, g at +1, b at +2 (R69, R101). -/
def readRgb (m : Memory) (a : Nat) : Option (Byte × Byte × Byte) :=
  match memRead m a 1, memRead m (a + 1) 1, memRead m (a + 2) 1 with
  | some r, some g, some b => some (BitVec.ofNat 8 r, BitVec.ofNat 8 g, BitVec.ofNat 8 b)
  | _, _, _ => none

/-- The RGB565Value of a pixel element at `a` (R69, R100). -/
def readPixel (m : Memory) (a : Nat) : Option Pixel :=
  match memRead m a 2 with
  | some v => some (BitVec.ofNat 16 v)
  | none => none

/-- Elements 0 .. n-1 of an array: element i is at base + i*esize (R99). None when a byte read is unwritten. -/
def readArray {α : Type} (read : Nat → Option α) (esize : Nat) : Nat → Nat → Option (List α)
  | _, 0 => some []
  | base, n + 1 =>
    match read base, readArray read esize (base + esize) n with
    | some x, some xs => some (x :: xs)
    | _, _ => none

/-! ## Element writes -/

/-- The bytes of a pixel element (R100). -/
def pixelBytes (v : Pixel) : List Byte := leBytes 2 v.toNat

/-! ## The engine step of a buffer command -/

/-- The engine step of QBUF, ENCODE, DECODE and DIFF from the ALIGN checks on (R130): the operand checks; every source
read (`compute`, none when a byte is unwritten: R135); the content check; the CAPACITY check of the number of output
elements; then the output, element k at DST + k*esize, and completion. -/
def runCommand {α : Type} (srcs : List Operand) (dst : Operand) (compute : Memory → Option α)
    (content : α → Option CmdError) (required : α → Nat) (out : α → List Byte) (s : State) : Result :=
  match operandError s.bufBytes srcs dst with
  | some e => .next (s.completeError e)
  | none =>
    match compute s.buf with
    | none => .fault .uninitRead
    | some a =>
      match content a with
      | some e => .next (s.completeError e)
      | none =>
        if dst.count < required a then .next (s.completeError (capacityError (required a)))
        else .next (s.completeOk (BitVec.ofNat 32 (required a)) (s.buf.writeBytes dst.base (out a)))

end Sys2Proof.Machine
end

