-- ==== Sys2Proof/Machine/Codec.lean ====
section
/-! DEFINITION. The run-length codec and its commands ENCODE and DECODE (42_rle_codec.md). -/

namespace Sys2Proof.Machine

/-- RLERun: (value, count) (R12, R102). Counts are exact here; R178 bounds them by 2^32-1. -/
structure Run where
  value : Pixel
  count : Nat
  deriving DecidableEq, Repr

/-- The scan of R170 with the current value and its running count. -/
def encodeFrom (cur : Pixel) (cnt : Nat) : List Pixel → List Run
  | [] => [⟨cur, cnt⟩]
  | x :: xs => if x = cur then encodeFrom cur (cnt + 1) xs else ⟨cur, cnt⟩ :: encodeFrom x 1 xs

/-- encode(s) (R170); an empty sequence gives no run (R172). -/
def encodeRuns : List Pixel → List Run
  | [] => []
  | x :: xs => encodeFrom x 1 xs

/-- The bytes of a run record: VALUE, RSVD = 0x0000, COUNT (R69, R102). -/
def runBytes (r : Run) : List Byte := leBytes 2 r.value.toNat ++ leBytes 2 0 ++ leBytes 4 r.count

/-- ENCODE (R173). -/
def execEncode (s : State) : Result :=
  s.withPending fun p =>
    runCommand [p.op.operandA .pixel] (p.op.operandDst .runRecord)
      (fun m => (readArray (readPixel m) 2 p.op.srcA.toNat p.op.lenA.toNat).map encodeRuns)
      (fun _ => none) List.length (fun runs => runs.flatMap runBytes) s

/-- A run record at `a`: VALUE at +0 and COUNT at +4; bytes +2 and +3 are never read (R69, R179). -/
def readRun (m : Memory) (a : Nat) : Option Run :=
  match memRead m a 2, memRead m (a + 4) 4 with
  | some v, some c => some ⟨BitVec.ofNat 16 v, c⟩
  | _, _ => none

/-- The index of the first run with count 0, counting from `k` (R175). -/
def firstZeroFrom : Nat → List Run → Option Nat
  | _, [] => none
  | k, r :: rs => if r.count = 0 then some k else firstZeroFrom (k + 1) rs

/-- INVALID_RUN at the least index with COUNT = 0 (R175). -/
def invalidRunError (runs : List Run) : Option CmdError :=
  match firstZeroFrom 0 runs with
  | some k => some ⟨.invalidRun, BitVec.ofNat 32 k⟩
  | none => none

/-- The exact sum of the counts (R176). -/
def totalCount : List Run → Nat
  | [] => 0
  | r :: rs => r.count + totalCount rs

/-- Each run's value count times, in order (R174). -/
def expandRuns (runs : List Run) : List Pixel := runs.flatMap fun r => List.replicate r.count r.value

/-- decode(runs) (R174). -/
def decodeRuns (runs : List Run) : Except CmdError (List Pixel) :=
  match invalidRunError runs with
  | some e => .error e
  | none => .ok (expandRuns runs)

/-- DECODE (R176): INVALID_RUN is checked before CAPACITY, and nothing is expanded before both pass. -/
def execDecode (s : State) : Result :=
  s.withPending fun p =>
    runCommand [p.op.operandA .runRecord] (p.op.operandDst .pixel)
      (fun m => readArray (readRun m) 8 p.op.srcA.toNat p.op.lenA.toNat)
      invalidRunError totalCount (fun runs => (expandRuns runs).flatMap pixelBytes) s

end Sys2Proof.Machine
end

