-- ==== Sys2Proof/Machine/Differ.lean ====
section
/-! DEFINITION. The sequence differ and its command DIFF (43_differ.md). -/

namespace Sys2Proof.Machine

/-- DiffRecord: (index, old, new, delta) (R12, R103). -/
structure DiffRecord where
  index : Nat
  old : Pixel
  new : Pixel
  delta : Int
  deriving DecidableEq, Repr

/-- delta = int(new) - int(old), exact and signed, never per channel (R201). -/
def pixelDelta (old new : Pixel) : Int := (new.toNat : Int) - (old.toNat : Int)

/-- The index-wise scan of R200 from index `i` on. -/
def diffFrom : Nat → List Pixel → List Pixel → List DiffRecord
  | i, x :: xs, y :: ys =>
    if x = y then diffFrom (i + 1) xs ys else ⟨i, x, y, pixelDelta x y⟩ :: diffFrom (i + 1) xs ys
  | _, _, _ => []

/-- diff(a, b) (R200): unequal lengths are LENGTH_MISMATCH (R202). -/
def diff (a b : List Pixel) : Except CmdError (List DiffRecord) :=
  if a.length = b.length then .ok (diffFrom 0 a b) else .error ⟨.lengthMismatch, 0#32⟩

/-- The bytes of a diff record: INDEX, OLD, NEW, and DELTA as u32(delta) (R69, R103, R201). -/
def diffBytes (d : DiffRecord) : List Byte :=
  leBytes 4 d.index ++ leBytes 2 d.old.toNat ++ leBytes 2 d.new.toNat ++ leBytes 4 (BitVec.ofInt 32 d.delta).toNat

/-- The records of two pixel arrays of n elements each; the two source regions may overlap (R205). -/
def diffArrays (m : Memory) (baseA baseB n : Nat) : Option (List DiffRecord) :=
  match readArray (readPixel m) 2 baseA n, readArray (readPixel m) 2 baseB n with
  | some a, some b => some (diffFrom 0 a b)
  | _, _ => none

/-- DIFF (R203): the lengths are compared before any other check (R202). -/
def execDiff (s : State) : Result :=
  s.withPending fun p =>
    if p.op.lenA = p.op.lenB then
      runCommand [p.op.operandA .pixel, p.op.operandB .pixel] (p.op.operandDst .diffRecord)
        (fun m => diffArrays m p.op.srcA.toNat p.op.srcB.toNat p.op.lenA.toNat)
        (fun _ => none) List.length (fun ds => ds.flatMap diffBytes) s
    else .next (s.completeError ⟨.lengthMismatch, 0#32⟩)

end Sys2Proof.Machine
end

