-- ==== Sys2Proof/Machine/Quantizer.lean ====
section
/-! DEFINITION. The quantizer and its commands QPIX and QBUF (41_quantizer.md). -/

namespace Sys2Proof.Machine

/-- Q(r, g, b) (R150). -/
def quantize (r g b : Byte) : Pixel :=
  let r5 := r >>> 3
  let g6 := g >>> 2
  let b5 := b >>> 3
  (r5.setWidth 16 <<< 11) ||| (g6.setWidth 16 <<< 5) ||| b5.setWidth 16

/-- QPIX (R152): RESULT takes Q of the word's channels; no operand register is read, nothing can fail. -/
def execQpix (r g b : Byte) (s : State) : Result :=
  s.withPending fun _ => .next (s.completeOk ((quantize r g b).setWidth 32) s.buf)

/-- The quantized pixels of an RGB888 array of n elements (R153). -/
def quantizeArray (m : Memory) (base n : Nat) : Option (List Pixel) :=
  match readArray (readRgb m) 3 base n with
  | some px => some (px.map fun c => quantize c.1 c.2.1 c.2.2)
  | none => none

/-- QBUF (R153). -/
def execQbuf (s : State) : Result :=
  s.withPending fun p =>
    runCommand [p.op.operandA .rgb888] (p.op.operandDst .pixel)
      (fun m => quantizeArray m p.op.srcA.toNat p.op.lenA.toNat)
      (fun _ => none) List.length (fun px => px.flatMap pixelBytes) s

end Sys2Proof.Machine
end

