-- ==== Sys2Proof/Machine/Dispatch.lean ====
section
/-! DEFINITION. What each command does: one arm per row of spec/opcode_table.json. -/

namespace Sys2Proof.Machine

def exec (i : Instr) (s : State) : Host.Outcome State Fault Refusal :=
  match i with
  | .qpix r g b => Sys2Proof.Machine.execQpix r g b s
  | .qbuf => Sys2Proof.Machine.execQbuf s
  | .encode => Sys2Proof.Machine.execEncode s
  | .decode => Sys2Proof.Machine.execDecode s
  | .diff => Sys2Proof.Machine.execDiff s

end Sys2Proof.Machine
end

