-- ==== Sys2Proof/Machine/Flags.lean ====
section
/-! DEFINITION. The STATUS and CTRL registers as words, the STATUS write rule, and the IRQ output (10_state.md R26, R27,
R32, R42). The PXC has no other flags (R45). -/

namespace Sys2Proof.Machine

/-- STATUS as read (R27): ERR in 11:8, CMDOVR in 2, DONE in 1, BUSY in 0, reserved bits 0. -/
def State.statusWord (s : State) : Word :=
  0#20 ++ s.err ++ 0#5 ++ BitVec.ofBool s.cmdovr ++ BitVec.ofBool s.done ++ BitVec.ofBool s.busy

/-- CTRL as read (R26): IE in bit 0, reserved bits 0. -/
def State.ctrlWord (s : State) : Word := 0#31 ++ BitVec.ofBool s.ie

/-- A host write of `v` to STATUS (R32): bit 1 clears DONE, bit 2 clears CMDOVR, every other bit is ignored. -/
def State.writeStatus (s : State) (v : Word) : State :=
  { s with done := s.done && !v.getLsbD 1, cmdovr := s.cmdovr && !v.getLsbD 2 }

/-- A host write of `v` to CTRL (R26): bit 0 is IE, reserved bits are ignored. It takes effect at once. -/
def State.writeCtrl (s : State) (v : Word) : State := { s with ie := v.getLsbD 0 }

/-- The IRQ output, a level: CTRL.IE & STATUS.DONE (R42). -/
def State.irq (s : State) : Bool := s.ie && s.done

end Sys2Proof.Machine
end

