-- ==== Sys2Proof/Machine/HostAccess.lean ====
section
/-! DEFINITION. The host's accesses to the two windows (10_state.md R20 to R43, 20_memory.md R60 to R67). -/

namespace Sys2Proof.Machine

/-! ## The register window -/

/-- The value a register reads as (R21, R22, R24, R25, R33 to R41). -/
def State.readReg (s : State) : Reg → Word
  | .id => 0x50584301#32
  | .cfg => 0#24 ++ BitVec.ofNat 8 s.params.bufAw
  | .ctrl => s.ctrlWord
  | .status => s.statusWord
  | .cmd => 0#32
  | .srcA => s.ops.srcA
  | .srcB => s.ops.srcB
  | .dst => s.ops.dst
  | .lenA => s.ops.lenA
  | .lenB => s.ops.lenB
  | .dstCap => s.ops.dstCap
  | .result => s.result
  | .errInfo => s.errInfo

/-- The value a word offset of the window reads as: reserved offsets read 0 (R22). -/
def State.readOffset (s : State) (off : Nat) : Word :=
  match regAt off with
  | some r => s.readReg r
  | none => 0#32

/-- A host write to a register: read-only registers ignore it (R22), CMD offers a command (R33). -/
def State.writeReg (s : State) (r : Reg) (v : Word) : State :=
  match r with
  | .id => s
  | .cfg => s
  | .ctrl => s.writeCtrl v
  | .status => s.writeStatus v
  | .cmd => s.offer v
  | .srcA => { s with ops := { s.ops with srcA := v } }
  | .srcB => { s with ops := { s.ops with srcB := v } }
  | .dst => { s with ops := { s.ops with dst := v } }
  | .lenA => { s with ops := { s.ops with lenA := v } }
  | .lenB => { s with ops := { s.ops with lenB := v } }
  | .dstCap => { s with ops := { s.ops with dstCap := v } }
  | .result => s
  | .errInfo => s

/-- A host write to a word offset: a reserved offset ignores it (R22). -/
def State.writeOffset (s : State) (off : Nat) (v : Word) : State :=
  match regAt off with
  | some r => s.writeReg r v
  | none => s

/-! ## Which accesses are allowed -/

/-- Where an access lands: an offset below 0x100 of the register window, or a BUF address below BUF_BYTES. -/
inductive Slot where
  | reg (off : Nat)
  | buf (a : Nat)
  deriving DecidableEq, Repr

/-- The window an access reaches (R60): BUF address a is host address BUF_BASE + a. None: in neither window. -/
def Params.locate (p : Params) : Place → Option Slot
  | .reg off => if off < regWindowBytes then some (.reg off) else none
  | .buf a => if a < p.bufBytes then some (.buf a) else none
  | .bus addr =>
    if p.regBase ≤ addr ∧ addr < p.regBase + regWindowBytes then some (.reg (addr - p.regBase))
    else if p.bufBase ≤ addr ∧ addr < p.bufBase + p.bufBytes then some (.buf (addr - p.bufBase))
    else none

/-- Why an access of `w` bytes is no legal one, before any cell is read: none when it is allowed. A register access
must be an aligned 32-bit access (R67); a BUF access must not race with a command (R66) and must be 1, 2 or 4 bytes at
a multiple of its width (R65). Log 7 gives the order when several apply. -/
def accessFault (busy : Bool) (w : Nat) : Slot → Option Fault
  | .reg off => if w = 4 ∧ off % 4 = 0 then none else some .hostWidth
  | .buf a =>
    if busy then some .hostRace
    else if w = 1 ∨ w = 2 ∨ w = 4 then (if a % w = 0 then none else some .hostMisaligned)
    else some .hostWidth

/-- The slot an access reaches, or the fault it is. -/
def State.access (s : State) (p : Place) (w : Nat) : Except Fault Slot :=
  match Params.locate s.params p with
  | none => .error .hostUnmapped
  | some slot =>
    match accessFault s.busy w slot with
    | some r => .error r
    | none => .ok slot

/-! ## Reads and writes -/

/-- The value a legal read of a slot returns, zero-extended to 32 bits (log 10); an unwritten cell is UNINIT_READ
(R65). -/
def State.readSlot (s : State) (w : Nat) : Slot → Except Fault Word
  | .reg off => .ok (s.readOffset off)
  | .buf a =>
    match memRead s.buf a w with
    | some v => .ok (BitVec.ofNat 32 v)
    | none => .error .uninitRead

/-- A legal write of a slot. -/
def State.writeSlot (s : State) (w : Nat) (v : Word) : Slot → State
  | .reg off => s.writeOffset off v
  | .buf a => { s with buf := memWrite s.buf a w v.toNat }

/-- A host read: the value returned, or the fault. A read changes nothing (R70). -/
def State.hostRead (s : State) (p : Place) (w : Nat) : Except Fault Word :=
  match s.access p w with
  | .error r => .error r
  | .ok slot => s.readSlot w slot

/-- A host write: the state after it, or the fault. -/
def State.hostWrite (s : State) (p : Place) (w : Nat) (v : Word) : Except Fault State :=
  match s.access p w with
  | .error r => .error r
  | .ok slot => .ok (s.writeSlot w v slot)

/-! ## Taking a host step -/

/-- The host has issued a step: `rest` is left, and one of the steps before the engine step is used up. -/
def State.issue (s : State) (rest : List HostStep) : State :=
  { s with env := { s.env with script := rest, delay := s.env.delay - 1 } }

/-- The host notes the value a read returned. -/
def State.logRead (s : State) (v : Word) : State :=
  { s with env := { s.env with readLog := v :: s.env.readLog } }

/-- One host step `h`, with `rest` after it in the script (R16, R70, R107, R250). -/
def performHost (h : HostStep) (rest : List HostStep) (s : State) : Result :=
  match h with
  | .read p w =>
    match s.hostRead p w with
    | .ok v => .next ((s.issue rest).logRead v)
    | .error r => .fault r
  | .write p w v =>
    match (s.issue rest).hostWrite p w v with
    | .ok t => .next t
    | .error r => .fault r
  | .wait => .next ((s.issue (if s.busy then .wait :: rest else rest)).logRead s.statusWord)
  | .reset => .next (s.issue rest).afterReset

/-- The host's move: its next step; with none left the host does nothing and the PXC keeps all state (R242). -/
def hostStep (s : State) : Result :=
  match s.env.script with
  | [] => .next s
  | h :: rest => performHost h rest s

end Sys2Proof.Machine
end

