-- ==== Sys2Proof/Machine/Engine.lean ====
section
/-! DEFINITION. The engine's move (40_command_cycle.md R124, R130) and whose move is next (70_reset_and_hazards.md
R271). -/

namespace Sys2Proof.Machine

/-- An illegal word's engine step (R95, R224): ILLEGAL_CMD with ERR_INFO = 0, no BUF access, no other effect. -/
def execIllegal (s : State) : Result :=
  s.withPending fun _ => .next (s.completeError ⟨.illegalCmd, 0#32⟩)

/-- The engine step (R130): the class is decoded from the latched command word first (R124). -/
def engineStep (s : State) : Result :=
  s.withPending fun p =>
    match decode p.cmd with
    | .ok i => exec i s
    | .error _ => execIllegal s

/-- The engine moves when a command is pending and the host steps before its engine step are used up, or the host has
no step left: a pending command always completes (R137; log 3). -/
def engineMoves (s : State) : Bool :=
  s.busy && (s.env.delay == 0 || s.env.script.isEmpty)

/-- PENDING takes the word `w` and copies of the operand registers, and the engine moves next. -/
def State.latch (s : State) (w : Word) : State :=
  { s with pending := some { cmd := w, op := s.ops }, env := { s.env with delay := 0 } }

end Sys2Proof.Machine
end

