-- ==== Sys2Proof/Machine/Step.lean ====
section
/-! DEFINITION. One step of the PXC and its host. -/

namespace Sys2Proof.Machine

/-- One step: none from a faulted state (R52), else one atomic move of the engine (R130) or of the host (R16). -/
def step (s : State) : Host.Outcome State Fault Refusal :=
  match s.fault with
  | some r => .fault r
  | none => if engineMoves s then engineStep s else hostStep s

/-- The same step as a function of states: a model fault is recorded in FAULT (R52, R232). `step` never refuses. -/
def advance (s : State) : State :=
  match step s with
  | .next t => t
  | .fault r => s.recordFault r
  | .refused _ => s

/-- `n` steps of `advance`. -/
def advanceBy : Nat → State → State
  | 0, s => s
  | n + 1, s => advanceBy n (advance s)

/-- The word `w` as the pending command, accepted with the operand registers as they stand, its engine step next
(log 9): the PXC fetches no instruction, it takes a command from a CMD write (R79). -/
def State.withFetchWord (s : State) (nbits w : Nat) : State := s.latch (BitVec.ofNat 32 (w % 2 ^ nbits))

end Sys2Proof.Machine
end

