-- ==== Sys2Proof/Safety.lean ====
section
/-! DEFINITION. The terms the claims use: what BUF holds, the two completions written field by field, the invariant of
the PXC, what the host sees, and what a safe run is. -/

namespace Sys2Proof.Machine

/-! ## What BUF holds (30_encoding.md R100 to R103) -/

/-- BUF holds the RGB888 array `px` at `base` (R101). -/
abbrev HoldsRgb (m : Memory) (base : Nat) (px : List (Byte × Byte × Byte)) : Prop :=
  ∀ i, ∀ h : i < px.length, memRead m (base + 3 * i) 1 = some px[i].1.toNat ∧
    memRead m (base + 3 * i + 1) 1 = some px[i].2.1.toNat ∧ memRead m (base + 3 * i + 2) 1 = some px[i].2.2.toNat

/-- BUF holds the PixelSequence `seq` at `base` (R100). -/
abbrev HoldsPixels (m : Memory) (base : Nat) (seq : List Pixel) : Prop :=
  ∀ i, ∀ h : i < seq.length, memRead m (base + 2 * i) 2 = some seq[i].toNat

/-- BUF holds the run records `runs` at `base`, whatever their RSVD halfwords hold (R102). -/
abbrev HoldsRuns (m : Memory) (base : Nat) (runs : List Run) : Prop :=
  ∀ k, ∀ h : k < runs.length, memRead m (base + 8 * k) 2 = some runs[k].value.toNat ∧
    memRead m (base + 8 * k + 4) 4 = some runs[k].count

/-- The RSVD halfwords of `n` run records at `base` are 0x0000 (R102). -/
abbrev RsvdZero (m : Memory) (base n : Nat) : Prop := ∀ k, k < n → memRead m (base + 8 * k + 2) 2 = some 0

/-- BUF holds the diff records `ds` at `base` (R103). -/
abbrev HoldsDiffs (m : Memory) (base : Nat) (ds : List DiffRecord) : Prop :=
  ∀ k, ∀ h : k < ds.length, memRead m (base + 12 * k) 4 = some ds[k].index ∧
    memRead m (base + 12 * k + 4) 2 = some ds[k].old.toNat ∧ memRead m (base + 12 * k + 6) 2 = some ds[k].new.toNat ∧
    memRead m (base + 12 * k + 8) 4 = some (BitVec.ofInt 32 ds[k].delta).toNat

/-- Every BUF byte outside [base, base + size) reads as before: the same value, or unwritten as before. -/
def SameOutside (m m' : Memory) (base size : Nat) : Prop :=
  ∀ a, a < base ∨ base + size ≤ a → m'.get a = m.get a

/-- A non-empty region of `size` bytes at `base` lies inside [0, bytes); an empty one may be anywhere (R81). -/
abbrev RegionFits (bytes base size : Nat) : Prop := size = 0 ∨ base + size ≤ bytes

/-- Two regions share no address (R82). -/
abbrev RegionsApart (a1 s1 a2 s2 : Nat) : Prop := s1 = 0 ∨ s2 = 0 ∨ a1 + s1 ≤ a2 ∨ a2 + s2 ≤ a1

/-! ## Completions, field by field -/

/-- The engine step is enabled on the pending command `p` (R130). -/
abbrev State.Enabled (s : State) (p : Pending) : Prop := s.fault = none ∧ s.pending = some p

/-- `s` after an error completion (R131): RESULT, ERR_INFO, ERR, DONE and PENDING change, nothing else. -/
def State.failed (s : State) (code : BitVec 4) (info : Word) : State :=
  { s with result := 0#32, errInfo := info, err := code, done := true, pending := none }

/-- `t` is `s` after a successful completion with RESULT `r` (R132), BUF left open. -/
def SucceedsWith (s : State) (r : Word) (t : State) : Prop :=
  t = { s with buf := t.buf, result := r, errInfo := 0#32, err := 0x0#4, done := true, pending := none }

/-- QBUF's operand checks pass (R126 to R128, R153). -/
abbrev QbufReady (bytes : Nat) (o : OperandRegs) : Prop :=
  o.dst.toNat % 2 = 0 ∧ RegionFits bytes o.srcA.toNat (3 * o.lenA.toNat) ∧
  RegionFits bytes o.dst.toNat (2 * o.dstCap.toNat) ∧
  RegionsApart o.dst.toNat (2 * o.dstCap.toNat) o.srcA.toNat (3 * o.lenA.toNat)

/-- ENCODE's operand checks pass (R126 to R128, R173). -/
abbrev EncodeReady (bytes : Nat) (o : OperandRegs) : Prop :=
  o.srcA.toNat % 2 = 0 ∧ o.dst.toNat % 4 = 0 ∧ RegionFits bytes o.srcA.toNat (2 * o.lenA.toNat) ∧
  RegionFits bytes o.dst.toNat (8 * o.dstCap.toNat) ∧
  RegionsApart o.dst.toNat (8 * o.dstCap.toNat) o.srcA.toNat (2 * o.lenA.toNat)

/-- DECODE's operand checks pass (R126 to R128, R176). -/
abbrev DecodeReady (bytes : Nat) (o : OperandRegs) : Prop :=
  o.srcA.toNat % 4 = 0 ∧ o.dst.toNat % 2 = 0 ∧ RegionFits bytes o.srcA.toNat (8 * o.lenA.toNat) ∧
  RegionFits bytes o.dst.toNat (2 * o.dstCap.toNat) ∧
  RegionsApart o.dst.toNat (2 * o.dstCap.toNat) o.srcA.toNat (8 * o.lenA.toNat)

/-- DIFF's operand checks pass (R126 to R128, R202, R203). -/
abbrev DiffReady (bytes : Nat) (o : OperandRegs) : Prop :=
  o.lenA = o.lenB ∧ o.srcA.toNat % 2 = 0 ∧ o.srcB.toNat % 2 = 0 ∧ o.dst.toNat % 4 = 0 ∧
  RegionFits bytes o.srcA.toNat (2 * o.lenA.toNat) ∧ RegionFits bytes o.srcB.toNat (2 * o.lenB.toNat) ∧
  RegionFits bytes o.dst.toNat (12 * o.dstCap.toNat) ∧
  RegionsApart o.dst.toNat (12 * o.dstCap.toNat) o.srcA.toNat (2 * o.lenA.toNat) ∧
  RegionsApart o.dst.toNat (12 * o.dstCap.toNat) o.srcB.toNat (2 * o.lenB.toNat)

/-- No two adjacent runs share a value (R171, R177). -/
abbrev MaximalRuns (runs : List Run) : Prop :=
  ∀ k, ∀ h : k + 1 < runs.length, runs[k].value ≠ runs[k + 1].value

/-- The bytes of one element of a command's output: pixels, run records or diff records (R98, R99). -/
def outputSize : Instr → Nat
  | .qpix _ _ _ => 0
  | .qbuf => 2
  | .encode => 8
  | .decode => 2
  | .diff => 12

/-! ## The invariant -/

/-- The values STATUS.ERR can hold: 0x3 and 0x9 to 0xF are states "the PXC cannot reach" (R229). -/
abbrev LegalErr (e : BitVec 4) : Prop := e ∈ [0x0#4, 0x1#4, 0x2#4, 0x4#4, 0x5#4, 0x6#4, 0x7#4, 0x8#4]

/-- RESULT and ERR_INFO fit STATUS.ERR: an error leaves RESULT 0 (R40) and the detail R136 gives, a success leaves
ERR_INFO 0 (R41). -/
abbrev OutcomeFits (err : BitVec 4) (result errInfo : Word) : Prop :=
  (err = 0x0#4 → errInfo = 0#32) ∧ (err ≠ 0x0#4 → result = 0#32) ∧
  (err = 0x2#4 ∨ err = 0x4#4 → errInfo = 0#32) ∧
  (err = 0x5#4 ∨ err = 0x6#4 → errInfo = 1#32 ∨ errInfo = 2#32 ∨ errInfo = 3#32) ∧
  (err = 0x7#4 → errInfo = 1#32 ∨ errInfo = 2#32)

/-- What every step keeps: legal parameters; BUF in canonical form with cells only at addresses below BUF_BYTES (R50);
a legal error code; and outcome registers that fit it. -/
structure State.Inv (s : State) : Prop where
  params : s.params.wf
  canonical : s.buf.wf
  inside : ∀ c ∈ s.buf, c.1 < s.bufBytes
  legalErr : LegalErr s.err
  outcome : OutcomeFits s.err s.result s.errInfo

/-! ## What the host sees, and safe runs -/

/-- What a claim is about (R17): "the register values, the BUF cells, the IRQ output and whether a model fault
happened". -/
structure Visible where
  regs : List Word
  cells : Memory
  irq : Bool
  fault : Option Fault
  deriving DecidableEq, Repr

/-- The 64 word slots of the register window (R20), BUF, IRQ and FAULT. -/
def State.visible (s : State) : Visible :=
  { regs := (List.range 64).map fun k => s.readOffset (4 * k), cells := s.buf, irq := s.irq, fault := s.fault }

/-- A run of `n` steps is safe when no model fault has happened: a claim about a host script takes this as a premise
(R232). -/
def SafeRun (n : Nat) (s : State) : Prop := (advanceBy n s).fault = none

/-- What the PXC holds, without the host's side. -/
def State.samePxc (s t : State) : Prop := t = { s with env := t.env }

end Sys2Proof.Machine
end

