-- ==== Sys2Proof/Certificates/Slice0/Obligations.lean ====
section
/-! DEFINITION. The statements for the provers. Each docstring names the rules of spec/ it formalises. -/

open Sys2Proof Sys2Proof.Machine

/-! ## Encoding (30_encoding.md) -/

/-- R90 to R95: decoding inverts encoding on every command, and a word that decodes is the word of its command, so no
bit of a word is dropped. -/
def Obligations.DecodeAndEncodeAgree : Prop :=
  (∀ i : Instr, i.wf = true → decode (encode i) = .ok i) ∧
  ∀ (w : Word) (i : Instr), decode w = .ok i → encode i = w

/-- R124: each word selects exactly the row R94 gives it, QPIX with the channels of R92, or it is illegal. -/
def Obligations.DecodeSelectsTableRow : Prop :=
  ∀ w : Word,
    (∀ r g b : Byte, decode w = .ok (.qpix r g b) ↔
      (w.toNat % 256 = 1 ∧ r.toNat = w.toNat / 2 ^ 24 ∧ g.toNat = w.toNat / 2 ^ 16 % 256 ∧
        b.toNat = w.toNat / 2 ^ 8 % 256)) ∧
    (decode w = .ok .qbuf ↔ w = 0x00000002#32) ∧ (decode w = .ok .encode ↔ w = 0x00000003#32) ∧
    (decode w = .ok .decode ↔ w = 0x00000004#32) ∧ (decode w = .ok .diff ↔ w = 0x00000005#32) ∧
    ((∃ e, decode w = .error e) ↔
      ¬(w.toNat % 256 = 1 ∨ w = 0x00000002#32 ∨ w = 0x00000003#32 ∨ w = 0x00000004#32 ∨ w = 0x00000005#32))

/-- R90, R94, R95 on words written out from the encoding tables: one word of every row, and three illegal ones. -/
def Obligations.SampleWordsDecode : Prop :=
  decode 0xFF000001#32 = .ok (.qpix 0xFF#8 0x00#8 0x00#8) ∧ decode 0x12345601#32 = .ok (.qpix 0x12#8 0x34#8 0x56#8) ∧
  decode 0x00000002#32 = .ok .qbuf ∧ decode 0x00000003#32 = .ok .encode ∧ decode 0x00000004#32 = .ok .decode ∧
  decode 0x00000005#32 = .ok .diff ∧ decode 0x00000000#32 = .error .unusedOpcode ∧
  decode 0x00000006#32 = .error .unusedOpcode ∧ decode 0x00000103#32 = .error .nonzeroUpperBits

/-! ## The engine's move (40_command_cycle.md) -/

/-- R124, R130: where it is the engine's move (log 3 says when), the step is the decoded command's meaning. -/
def Obligations.StepRunsPendingCommand : Prop :=
  ∀ (s : State) (p : Pending) (i : Instr), s.Enabled p → s.env.delay = 0 ∨ s.env.script = [] →
    decode p.cmd = .ok i → step s = exec i s

/-- R95: a word with an unused opcode, or with upper bits where none may be set, is accepted while idle like any other
and its engine step completes with ILLEGAL_CMD and ERR_INFO = 0, BUF untouched and no other effect; every other word
selects a command. -/
def Obligations.IllegalWordCompletes : Prop :=
  ∀ w : Word,
    ((w.toNat % 256 = 0 ∨ 6 ≤ w.toNat % 256 ∨
        (2 ≤ w.toNat % 256 ∧ w.toNat % 256 ≤ 5 ∧ w.toNat / 256 ≠ 0)) →
      (∀ s : State, s.fault = none → s.pending = none →
        ∃ t, s.hostWrite (.reg 0x10) 4 w = .ok t ∧ t.pending = some ⟨w, s.ops⟩) ∧
      ∀ (s : State) (p : Pending), s.Enabled p → p.cmd = w → engineStep s = .next (s.failed 0x4#4 0#32)) ∧
    (¬(w.toNat % 256 = 0 ∨ 6 ≤ w.toNat % 256 ∨
        (2 ≤ w.toNat % 256 ∧ w.toNat % 256 ≤ 5 ∧ w.toNat / 256 ≠ 0)) → ∃ i, decode w = .ok i)

/-- No state makes a step refuse: every word has a meaning, and the engine moves only with a command pending. -/
def Obligations.StepNeverRefuses : Prop := ∀ (s : State) (r : Refusal), step s ≠ .refused r

/-- R52: FAULT is empty at the start of a run; once set it is never cleared and no step is enabled. -/
def Obligations.FaultIsFinal : Prop :=
  State.reset.fault = none ∧
  ∀ (s : State) (r : Fault), s.fault = some r → step s = .fault r ∧ ∀ n, (advanceBy n s).fault = some r

/-- R232: a model fault sets FAULT and leaves the rest of the state as it was before the step. -/
def Obligations.ModelFaultKeepsState : Prop :=
  ∀ (s : State) (r : Fault), s.fault = none → step s = .fault r → advance s = { s with fault := some r }

/-- R242, with the model's choice that an idle step changes nothing (log 13): with no command pending and no host step
left, the PXC keeps all state. -/
def Obligations.IdleKeepsState : Prop :=
  ∀ s : State, s.fault = none → s.pending = none → s.env.script = [] → step s = .next s

/-! ## The register window (10_state.md) -/

/-- R22: reserved offsets read 0 and ignore writes, the read-only registers ignore writes, CMD reads 0. -/
def Obligations.ReservedAndReadOnlyOffsets : Prop :=
  ∀ s : State,
    (∀ off, 0x34 ≤ off → off < 0x100 → off % 4 = 0 →
      s.hostRead (.reg off) 4 = .ok 0#32 ∧ ∀ v, s.hostWrite (.reg off) 4 v = .ok s) ∧
    (∀ off, off = 0x00 ∨ off = 0x04 ∨ off = 0x2C ∨ off = 0x30 → ∀ v, s.hostWrite (.reg off) 4 v = .ok s) ∧
    s.hostRead (.reg 0x10) 4 = .ok 0#32

/-- R24, R25: ID reads 0x50584301 in every state; CFG reads BUF_AW. -/
def Obligations.IdentityAndConfig : Prop :=
  ∀ s : State, s.hostRead (.reg 0x00) 4 = .ok 0x50584301#32 ∧
    (s.params.wf → s.hostRead (.reg 0x04) 4 = .ok (BitVec.ofNat 32 s.params.bufAw))

/-- R27, R53: the value STATUS reads as: BUSY in bit 0, DONE in bit 1, CMDOVR in bit 2, ERR in bits 11:8, nothing in
the reserved bits. -/
def Obligations.StatusReadsItsFields : Prop :=
  ∀ s : State, ∃ v, s.hostRead (.reg 0x0C) 4 = .ok v ∧
    v.toNat = (if s.pending = none then 0 else 1) + 2 * s.done.toNat + 4 * s.cmdovr.toNat + 256 * s.err.toNat

/-- R28: BUSY reads 1 exactly when PENDING is occupied; acceptance sets it, completion and reset clear it, and nothing
else changes it: no other host write, no read, no WAIT, and no step of the machine but these three. -/
def Obligations.BusyIsPendingOccupied : Prop :=
  (∀ s : State, s.statusWord.getLsbD 0 = true ↔ s.pending ≠ none) ∧
  (∀ (s : State) w, s.pending = none → ∃ t, s.hostWrite (.reg 0x10) 4 w = .ok t ∧ t.statusWord.getLsbD 0 = true) ∧
  (∀ (s t : State), engineStep s = .next t → t.statusWord.getLsbD 0 = false) ∧
  (∀ (s t : State) rest, performHost .reset rest s = .next t → t.statusWord.getLsbD 0 = false) ∧
  (∀ (s t : State) p w v, s.hostWrite p w v = .ok t → s.access p w ≠ .ok (.reg 0x10) ∨ s.pending ≠ none →
    t.pending = s.pending) ∧
  (∀ (s t : State) p w rest, performHost (.read p w) rest s = .next t → t.pending = s.pending) ∧
  (∀ (s t : State) rest, performHost .wait rest s = .next t → t.pending = s.pending) ∧
  ∀ (s t : State), step s = .next t → t.pending ≠ s.pending →
    (s.pending ≠ none ∧ engineStep s = .next t) ∨ (∃ rest, s.env.script = .reset :: rest) ∨
      (s.pending = none ∧ ∃ p v rest, s.env.script = .write p 4 v :: rest ∧ s.access p 4 = .ok (.reg 0x10))

/-- R32: a STATUS write clears DONE by bit 1 and CMDOVR by bit 2 and ignores every other bit. -/
def Obligations.StatusWriteClearsByOnes : Prop :=
  ∀ (s : State) (v : Word), s.hostWrite (.reg 0x0C) 4 v =
    .ok { s with done := if v.getLsbD 1 then false else s.done, cmdovr := if v.getLsbD 2 then false else s.cmdovr }

/-- R26: CTRL holds IE in bit 0 alone, 0 after reset, whatever is written to the reserved bits; a write takes effect at
once, pending or not, and IE = 1 lets DONE drive IRQ. -/
def Obligations.CtrlHoldsInterruptEnable : Prop :=
  State.reset.hostRead (.reg 0x08) 4 = .ok 0#32 ∧
  ∀ (s : State) (v : Word), ∃ t, s.hostWrite (.reg 0x08) 4 v = .ok t ∧ t = { s with ie := v.getLsbD 0 } ∧
    t.hostRead (.reg 0x08) 4 = .ok (v &&& 1#32) ∧ t.irq = (v.getLsbD 0 && s.done)

/-- R34 to R39: each operand register takes the whole word written, reads it back, and changes nothing else; R21, R40,
R41: RESULT and ERR_INFO read as what they hold. -/
def Obligations.OperandRegistersHoldWords : Prop :=
  ∀ (s : State) (v : Word),
    (s.hostWrite (.reg 0x14) 4 v = .ok { s with ops := { s.ops with srcA := v } } ∧
      s.hostRead (.reg 0x14) 4 = .ok s.ops.srcA) ∧
    (s.hostWrite (.reg 0x18) 4 v = .ok { s with ops := { s.ops with srcB := v } } ∧
      s.hostRead (.reg 0x18) 4 = .ok s.ops.srcB) ∧
    (s.hostWrite (.reg 0x1C) 4 v = .ok { s with ops := { s.ops with dst := v } } ∧
      s.hostRead (.reg 0x1C) 4 = .ok s.ops.dst) ∧
    (s.hostWrite (.reg 0x20) 4 v = .ok { s with ops := { s.ops with lenA := v } } ∧
      s.hostRead (.reg 0x20) 4 = .ok s.ops.lenA) ∧
    (s.hostWrite (.reg 0x24) 4 v = .ok { s with ops := { s.ops with lenB := v } } ∧
      s.hostRead (.reg 0x24) 4 = .ok s.ops.lenB) ∧
    (s.hostWrite (.reg 0x28) 4 v = .ok { s with ops := { s.ops with dstCap := v } } ∧
      s.hostRead (.reg 0x28) 4 = .ok s.ops.dstCap) ∧
    s.hostRead (.reg 0x2C) 4 = .ok s.result ∧ s.hostRead (.reg 0x30) 4 = .ok s.errInfo

/-- R120: while idle, every word is accepted: PENDING takes it with copies of the six operand registers and DONE is
cleared; every other field is unchanged (the host's side notes the delay drawn). BUSY then reads 1. -/
def Obligations.CommandIsAccepted : Prop :=
  ∀ (s : State) (w : Word), s.fault = none → s.pending = none → ∃ t, s.hostWrite (.reg 0x10) 4 w = .ok t ∧
    t = { s with pending := some ⟨w, s.ops⟩, done := false, env := t.env } ∧ t.busy = true

/-- R121: while a command is pending, a CMD write only sets CMDOVR, and the pending command runs unchanged. -/
def Obligations.CommandWhileBusyIsDropped : Prop :=
  ∀ (s : State) (w : Word), s.pending ≠ none →
    s.hostWrite (.reg 0x10) 4 w = .ok { s with cmdovr := true } ∧
    (∀ t, engineStep s = .next t → engineStep { s with cmdovr := true } = .next { t with cmdovr := true }) ∧
    ∀ r, engineStep s = .fault r → engineStep { s with cmdovr := true } = .fault r

/-- R30: a step sets CMDOVR only by a CMD write while BUSY = 1, and clears it only by a STATUS write with bit 2 set or
by reset; acceptance and completion leave it. -/
def Obligations.OverrunIsSticky : Prop :=
  (∀ (s : State) w, s.pending ≠ none → ∃ t, s.hostWrite (.reg 0x10) 4 w = .ok t ∧ t.cmdovr = true) ∧
  (∀ (s t : State), step s = .next t → s.cmdovr = false → t.cmdovr = true →
    s.pending ≠ none ∧ ∃ p v rest, s.env.script = .write p 4 v :: rest ∧ s.access p 4 = .ok (.reg 0x10)) ∧
  (∀ (s t : State), step s = .next t → s.cmdovr = true → t.cmdovr = false →
    (∃ p v rest, s.env.script = .write p 4 v :: rest ∧ s.access p 4 = .ok (.reg 0x0C) ∧ v.getLsbD 2 = true) ∨
      ∃ rest, s.env.script = .reset :: rest) ∧
  (∀ (s t : State) w, s.pending = none → s.hostWrite (.reg 0x10) 4 w = .ok t → t.cmdovr = s.cmdovr) ∧
  ∀ (s t : State), engineStep s = .next t → t.cmdovr = s.cmdovr

/-- R31, R40, R41: ERR, RESULT and ERR_INFO are written only at completion and by reset: no other host step changes
them. -/
def Obligations.OutcomeWrittenOnlyAtCompletion : Prop :=
  ∀ (s t : State), step s = .next t → s.pending = none ∨ s.env.delay ≠ 0 → (∀ rest, s.env.script ≠ .reset :: rest) →
    s.env.script ≠ [] → t.err = s.err ∧ t.result = s.result ∧ t.errInfo = s.errInfo

/-- R42, R43, R231: IRQ is high exactly while IE and DONE are 1; it goes low when the host clears DONE, when a command
is accepted, when IE is written 0, and on reset; a completion with IE = 1 raises it. -/
def Obligations.IrqIsCompletionLevel : Prop :=
  (∀ s : State, s.irq = true ↔ s.ie = true ∧ s.done = true) ∧
  (∀ (s t : State) v, v.getLsbD 1 = true → s.hostWrite (.reg 0x0C) 4 v = .ok t → t.irq = false) ∧
  (∀ (s t : State) w, s.pending = none → s.hostWrite (.reg 0x10) 4 w = .ok t → t.irq = false) ∧
  (∀ (s t : State) v, v.getLsbD 0 = false → s.hostWrite (.reg 0x08) 4 v = .ok t → t.irq = false) ∧
  (∀ (s t : State) rest, performHost .reset rest s = .next t → t.irq = false) ∧
  ∀ (s t : State), engineStep s = .next t → t.irq = s.ie

/-! ## The host's accesses (20_memory.md) -/

/-- R74, R16: while it is the host's move, the first step of its script is taken: a write leaves the state the access
gives, a read is noted with its value, a reset is taken, and a wrong access is that model fault. A WAIT reads STATUS
once and stays in the script while a command is pending: one read a step is the model's choice (log 14), as is when it
is the host's move (log 3). -/
def Obligations.HostStepsAreTakenInOrder : Prop :=
  ∀ (s : State) (rest : List HostStep), s.fault = none → s.pending = none ∨ s.env.delay ≠ 0 →
    (∀ p w v, s.env.script = .write p w v :: rest →
      (∀ t, (s.issue rest).hostWrite p w v = .ok t → step s = .next t) ∧
      ∀ r, s.hostWrite p w v = .error r → step s = .fault r) ∧
    (s.env.script = .reset :: rest → step s = performHost .reset rest s) ∧
    (s.env.script = .wait :: rest → ∀ v, s.hostRead (.reg 0x0C) 4 = .ok v → step s =
      .next { s with env := { s.env with
        script := if s.pending = none then rest else .wait :: rest
        delay := s.env.delay - 1, readLog := v :: s.env.readLog } }) ∧
    ∀ p w, s.env.script = .read p w :: rest →
      (∀ v, s.hostRead p w = .ok v → step s =
        .next { s with env := { s.env with script := rest, delay := s.env.delay - 1, readLog := v :: s.env.readLog } }) ∧
      ∀ r, s.hostRead p w = .error r → step s = .fault r

/-- R67: a register access is allowed exactly when it is 32 bits wide at a multiple of 4, pending or not; any other is
HOST_WIDTH. -/
def Obligations.RegisterAccessWidth : Prop :=
  ∀ (s : State) (off w : Nat), off < 0x100 →
    (w = 4 ∧ off % 4 = 0 → (∃ v, s.hostRead (.reg off) w = .ok v) ∧ ∀ v, ∃ t, s.hostWrite (.reg off) w v = .ok t) ∧
    (¬(w = 4 ∧ off % 4 = 0) →
      s.hostRead (.reg off) w = .error .hostWidth ∧ ∀ v, s.hostWrite (.reg off) w v = .error .hostWidth)

/-- R65: with no command pending, a BUF access of 1, 2 or 4 bytes at a multiple of its width stores or returns the
little-endian value, a read of an unwritten cell is UNINIT_READ, a misaligned access is HOST_MISALIGNED and another
width HOST_WIDTH. (Where a width is wrong and no divisor of the address either, which of the two is named is the
model's choice, log 7, and not stated.) -/
def Obligations.BufAccessWhileIdle : Prop :=
  ∀ (s : State) (a w : Nat) (v : Word), s.pending = none → a < s.bufBytes →
    (w = 1 ∨ w = 2 ∨ w = 4 → a % w = 0 → a + w ≤ s.bufBytes →
      (∃ m, s.hostWrite (.buf a) w v = .ok { s with buf := m } ∧ memRead m a w = some (v.toNat % 256 ^ w) ∧
        SameOutside s.buf m a w) ∧
      (∀ x, memRead s.buf a w = some x → s.hostRead (.buf a) w = .ok (BitVec.ofNat 32 x)) ∧
      ((∃ k, k < w ∧ s.buf.get (a + k) = none) → s.hostRead (.buf a) w = .error .uninitRead)) ∧
    (w = 1 ∨ w = 2 ∨ w = 4 → a % w ≠ 0 →
      s.hostRead (.buf a) w = .error .hostMisaligned ∧ s.hostWrite (.buf a) w v = .error .hostMisaligned) ∧
    (¬(w = 1 ∨ w = 2 ∨ w = 4) → a % w = 0 →
      s.hostRead (.buf a) w = .error .hostWidth ∧ s.hostWrite (.buf a) w v = .error .hostWidth)

/-- While a command is pending, every host access to the BUF window is HOST_RACE, as R66 says of every access; that it is
named so for a misaligned or wrong-width access too, where R65 names another reason, is the model's choice (log 7). -/
def Obligations.BufAccessWhileBusyRaces : Prop :=
  ∀ (s : State) (p : Pending) (a w : Nat) (v : Word), s.pending = some p → a < s.bufBytes →
    s.hostRead (.buf a) w = .error .hostRace ∧ s.hostWrite (.buf a) w v = .error .hostRace

/-- R64: a 32-bit write seen at other widths, by the host and by the engine's pixel read. -/
def Obligations.MixedWidthViews : Prop :=
  ∀ (s : State) (a : Nat) (v : Word), s.pending = none → a % 4 = 0 → a + 4 ≤ s.bufBytes →
    ∃ t, s.hostWrite (.buf a) 4 v = .ok t ∧
      t.hostRead (.buf a) 2 = .ok (BitVec.ofNat 32 (v.toNat % 2 ^ 16)) ∧
      t.hostRead (.buf (a + 2)) 2 = .ok (BitVec.ofNat 32 (v.toNat / 2 ^ 16)) ∧
      t.hostRead (.buf (a + 3)) 1 = .ok (BitVec.ofNat 32 (v.toNat / 2 ^ 24)) ∧
      readPixel t.buf a = some (v.extractLsb' 0 16) ∧ readPixel t.buf (a + 2) = some (v.extractLsb' 16 16)

/-- R60: BUF address a is host address BUF_BASE + a and register offset k is host address REG_BASE + k; an access
anywhere else is the model's own fault (log 6). -/
def Obligations.HostAddressMap : Prop :=
  ∀ (s : State) (w : Nat) (v : Word), s.params.wf →
    (∀ k, k < 0x100 → s.hostRead (.bus (s.params.regBase + k)) w = s.hostRead (.reg k) w ∧
      s.hostWrite (.bus (s.params.regBase + k)) w v = s.hostWrite (.reg k) w v) ∧
    (∀ a, a < s.bufBytes → s.hostRead (.bus (s.params.bufBase + a)) w = s.hostRead (.buf a) w ∧
      s.hostWrite (.bus (s.params.bufBase + a)) w v = s.hostWrite (.buf a) w v) ∧
    ∀ x, ¬(s.params.regBase ≤ x ∧ x < s.params.regBase + 0x100) →
      ¬(s.params.bufBase ≤ x ∧ x < s.params.bufBase + s.bufBytes) →
      s.hostRead (.bus x) w = .error .hostUnmapped ∧ s.hostWrite (.bus x) w v = .error .hostUnmapped

/-- R70: a read step changes nothing of the PXC, so repeating it returns the same value; a register write has a side
effect beyond its own register only for STATUS and CMD, and a BUF write none. -/
def Obligations.ReadsHaveNoSideEffect : Prop :=
  (∀ (s t : State) p w rest, performHost (.read p w) rest s = .next t → s.samePxc t ∧ ∀ q u, t.hostRead q u = s.hostRead q u) ∧
  (∀ (s t : State) off v, off ≠ 0x0C → off ≠ 0x10 → s.hostWrite (.reg off) 4 v = .ok t →
    t.buf = s.buf ∧ ∀ off', off' ≠ off → t.hostRead (.reg off') 4 = s.hostRead (.reg off') 4) ∧
  ∀ (s t : State) a w v, s.hostWrite (.buf a) w v = .ok t → t = { s with buf := t.buf }

/-- R250: the reset step, enabled whenever FAULT is empty, a command pending or not: every register at its reset value,
PENDING empty, IRQ low, every BUF cell unwritten, FAULT unchanged (and the parameters, which are no state). -/
def Obligations.ResetStep : Prop :=
  ∀ (s : State) (rest : List HostStep), s.fault = none → s.params.wf →
    ∃ t, performHost .reset rest s = .next t ∧ t.hostRead (.reg 0x00) 4 = .ok 0x50584301#32 ∧
      t.hostRead (.reg 0x04) 4 = .ok (BitVec.ofNat 32 s.params.bufAw) ∧
      (∀ off, 8 ≤ off → off < 0x100 → off % 4 = 0 → t.hostRead (.reg off) 4 = .ok 0#32) ∧
      t.pending = none ∧ t.irq = false ∧ (∀ a, t.buf.get a = none) ∧ t.fault = s.fault ∧ t.params = s.params

/-! ## The quantizer (41_quantizer.md) -/

/-- R152: QPIX completes in every state where its engine step is enabled, with RESULT = zext_32 of
{r[7:3], g[7:2], b[7:3]}, ERR 0x0, DONE 1 and ERR_INFO 0, reads no operand register, can fail on no state, and leaves BUF
and everything else as it was; it is the engine step of every word {r, g, b, 0x01}. -/
def Obligations.QpixQuantizes : Prop :=
  ∀ (s : State) (p : Pending) (r g b : Byte), s.Enabled p →
    exec (.qpix r g b) s = .next { s with
      result := (0#16 ++ (r.extractLsb' 3 5 ++ g.extractLsb' 2 6 ++ b.extractLsb' 3 5 : BitVec 16) : BitVec 32)
      errInfo := 0#32, err := 0x0#4, done := true, pending := none } ∧
    (p.cmd = r ++ g ++ b ++ 0x01#8 → engineStep s = exec (.qpix r g b) s)

/-- R150, R151: Q is {r[7:3], g[7:2], b[7:3]}; its fields, its range, and its invariance under the discarded bits. -/
def Obligations.QuantizerProperties : Prop :=
  ∀ r g b : Byte, quantize r g b = (r.extractLsb' 3 5 ++ g.extractLsb' 2 6 ++ b.extractLsb' 3 5 : BitVec 16) ∧
    (quantize r g b).toNat ≤ 65535 ∧
    (quantize r g b).extractLsb' 11 5 = r.extractLsb' 3 5 ∧ (quantize r g b).extractLsb' 5 6 = g.extractLsb' 2 6 ∧
    (quantize r g b).extractLsb' 0 5 = b.extractLsb' 3 5 ∧
    ∀ r' g' b' : Byte, r'.extractLsb' 3 5 = r.extractLsb' 3 5 → g'.extractLsb' 2 6 = g.extractLsb' 2 6 →
      b'.extractLsb' 3 5 = b.extractLsb' 3 5 → quantize r' g' b' = quantize r g b

/-- R154: the OR of the three fields is their integer sum, so nothing overflows. -/
def Obligations.QuantizerIsIntegerSum : Prop :=
  ∀ r g b : Byte, (quantize r g b).toNat = 32 * 64 * (r.toNat / 8) + 32 * (g.toNat / 4) + b.toNat / 8

/-- R153, R130, R132, R134: QBUF over a source that BUF holds, whose checks pass and whose output fits, completes:
RESULT is the pixel count, DST holds Q of every element, every byte outside the 2n output bytes reads as before, and
nothing else changes. -/
def Obligations.QbufWritesQuantizedPixels : Prop :=
  ∀ (s : State) (p : Pending) (px : List (Byte × Byte × Byte)), s.Enabled p → QbufReady s.bufBytes p.op →
    px.length = p.op.lenA.toNat → HoldsRgb s.buf p.op.srcA.toNat px → p.op.lenA.toNat ≤ p.op.dstCap.toNat →
    ∃ t, exec .qbuf s = .next t ∧ SucceedsWith s p.op.lenA t ∧
      HoldsPixels t.buf p.op.dst.toNat (px.map fun c => quantize c.1 c.2.1 c.2.2) ∧
      SameOutside s.buf t.buf p.op.dst.toNat (2 * px.length)

/-! ## The run-length codec (42_rle_codec.md) -/

/-- R173, R130, R132, R134: ENCODE over pixels that BUF holds, whose checks pass and whose runs fit the capacity,
completes: RESULT is the number of runs, DST holds them with RSVD 0x0000, every other byte reads as before, and nothing
else changes. -/
def Obligations.EncodeWritesRuns : Prop :=
  ∀ (s : State) (p : Pending) (seq : List Pixel), s.Enabled p → EncodeReady s.bufBytes p.op →
    seq.length = p.op.lenA.toNat → HoldsPixels s.buf p.op.srcA.toNat seq →
    (encodeRuns seq).length ≤ p.op.dstCap.toNat →
    ∃ t, exec .encode s = .next t ∧ SucceedsWith s (BitVec.ofNat 32 (encodeRuns seq).length) t ∧
      HoldsRuns t.buf p.op.dst.toNat (encodeRuns seq) ∧
      RsvdZero t.buf p.op.dst.toNat (encodeRuns seq).length ∧
      SameOutside s.buf t.buf p.op.dst.toNat (8 * (encodeRuns seq).length)

/-- R176, R130, R132, R134: DECODE over run records that BUF holds, every count at least 1, whose checks pass and whose
total fits the capacity, completes: RESULT is the sum of the counts, DST holds each value count times in order, every
other byte reads as before, and nothing else changes. -/
def Obligations.DecodeWritesPixels : Prop :=
  ∀ (s : State) (p : Pending) (runs : List Run), s.Enabled p → DecodeReady s.bufBytes p.op →
    runs.length = p.op.lenA.toNat → HoldsRuns s.buf p.op.srcA.toNat runs → (∀ r ∈ runs, 1 ≤ r.count) →
    (runs.map Run.count).sum ≤ p.op.dstCap.toNat →
    ∃ t, exec .decode s = .next t ∧ SucceedsWith s (BitVec.ofNat 32 (runs.map Run.count).sum) t ∧
      HoldsPixels t.buf p.op.dst.toNat (runs.flatMap fun r => List.replicate r.count r.value) ∧
      SameOutside s.buf t.buf p.op.dst.toNat (2 * (runs.map Run.count).sum)

/-- R171: every count of encode(s) is at least 1, the counts sum to len(s), no two adjacent runs share a value, and
expanding the runs in order gives s. -/
def Obligations.EncodedRunsAreMaximal : Prop :=
  ∀ s : List Pixel, (∀ r ∈ encodeRuns s, 1 ≤ r.count) ∧ ((encodeRuns s).map Run.count).sum = s.length ∧
    MaximalRuns (encodeRuns s) ∧ ((encodeRuns s).flatMap fun r => List.replicate r.count r.value) = s

/-- R177: decode accepts every run sequence whose counts are at least 1, maximal or not; decode(encode(s)) = s; and
encode(decode(r)) = r exactly when r is maximal. -/
def Obligations.DecodeInvertsEncode : Prop :=
  (∀ s : List Pixel, decodeRuns (encodeRuns s) = .ok s) ∧
  ∀ runs : List Run, (∀ r ∈ runs, 1 ≤ r.count) →
    ∃ s, decodeRuns runs = .ok s ∧ s = (runs.flatMap fun r => List.replicate r.count r.value) ∧
      (encodeRuns s = runs ↔ MaximalRuns runs)

/-- R175: a record with COUNT = 0 makes DECODE raise INVALID_RUN with the least such index, and nothing is written. -/
def Obligations.ZeroCountIsInvalidRun : Prop :=
  ∀ (s : State) (p : Pending) (runs : List Run) (k : Nat) (hk : k < runs.length), s.Enabled p →
    DecodeReady s.bufBytes p.op → runs.length = p.op.lenA.toNat → HoldsRuns s.buf p.op.srcA.toNat runs →
    runs[k].count = 0 → (∀ j, ∀ h : j < k, runs[j].count ≠ 0) →
    exec .decode s = .next (s.failed 0x1#4 (BitVec.ofNat 32 k))

/-- R179: ENCODE writes 0x0000 to every RSVD halfword, and DECODE's outcome does not depend on what the RSVD halfwords
of its source hold, written or not. -/
def Obligations.RsvdNeverChangesDecode : Prop :=
  (∀ (s t : State) (p : Pending), s.Enabled p → exec .encode s = .next t → t.err = 0x0#4 →
    RsvdZero t.buf p.op.dst.toNat t.result.toNat) ∧
  ∀ (s : State) (p : Pending) (m : Memory), s.Enabled p →
    (∀ a, (∀ k, k < p.op.lenA.toNat → a ≠ p.op.srcA.toNat + 8 * k + 2 ∧ a ≠ p.op.srcA.toNat + 8 * k + 3) →
      m.get a = s.buf.get a) →
    (∀ r, exec .decode s = .fault r → exec .decode { s with buf := m } = .fault r) ∧
    ∀ t, exec .decode s = .next t → ∃ t', exec .decode { s with buf := m } = .next t' ∧
      t' = { t with buf := t'.buf } ∧
      ∀ a, (∀ k, k < p.op.lenA.toNat → a ≠ p.op.srcA.toNat + 8 * k + 2 ∧ a ≠ p.op.srcA.toNat + 8 * k + 3) →
        t'.buf.get a = t.buf.get a

/-- The source's property P-1 (95_test_vectors.md 1.6; R171, R173, R176): ENCODE of a held sequence, then DECODE of the
records it wrote into a region apart from them, gives the sequence back, element by element. -/
def Obligations.RoundTripThroughBuf : Prop :=
  ∀ (s : State) (p : Pending) (seq : List Pixel), s.Enabled p → EncodeReady s.bufBytes p.op →
    seq.length = p.op.lenA.toNat → HoldsPixels s.buf p.op.srcA.toNat seq → seq.length ≤ p.op.dstCap.toNat →
    ∃ t, exec .encode s = .next t ∧ t.err = 0x0#4 ∧
      ∀ (w : Word) (o : OperandRegs), o.srcA = p.op.dst → o.lenA = t.result → DecodeReady s.bufBytes o →
        seq.length ≤ o.dstCap.toNat →
        ∃ u, exec .decode { t with pending := some ⟨w, o⟩ } = .next u ∧ u.err = 0x0#4 ∧
          u.result = BitVec.ofNat 32 seq.length ∧ HoldsPixels u.buf o.dst.toNat seq

/-! ## The differ (43_differ.md) -/

/-- R203, R130, R132, R134: DIFF over two arrays that BUF holds, whose checks pass and whose records fit the capacity,
completes: RESULT is the number of records, DST holds them, every other byte reads as before, and nothing else
changes. -/
def Obligations.DiffWritesRecords : Prop :=
  ∀ (s : State) (p : Pending) (a b : List Pixel) (ds : List DiffRecord), s.Enabled p → DiffReady s.bufBytes p.op →
    a.length = p.op.lenA.toNat → b.length = p.op.lenB.toNat → HoldsPixels s.buf p.op.srcA.toNat a →
    HoldsPixels s.buf p.op.srcB.toNat b → diff a b = .ok ds → ds.length ≤ p.op.dstCap.toNat →
    ∃ t, exec .diff s = .next t ∧ SucceedsWith s (BitVec.ofNat 32 ds.length) t ∧
      HoldsDiffs t.buf p.op.dst.toNat ds ∧ SameOutside s.buf t.buf p.op.dst.toNat (12 * ds.length)

/-- R200: diff of two sequences of equal length lists exactly the differing indices, in ascending order, each with the
old value, the new value and int(new) - int(old); of unequal lengths it fails. -/
def Obligations.DiffListsEveryDifference : Prop :=
  (∀ a b : List Pixel, a.length ≠ b.length → diff a b = .error ⟨.lengthMismatch, 0#32⟩) ∧
  ∀ a b : List Pixel, a.length = b.length → ∃ ds, diff a b = .ok ds ∧ ds.Pairwise (fun x y => x.index < y.index) ∧
    ∀ d : DiffRecord, d ∈ ds ↔ (a[d.index]? = some d.old ∧ b[d.index]? = some d.new ∧ d.old ≠ d.new ∧
      d.delta = (d.new.toNat : Int) - (d.old.toNat : Int))

/-- R201: the delta is exact and signed, lies in [-65535, +65535], is 0 only for equal values, and is stored at +8 of its
record as the 32-bit pattern that reads back as it; the rule's four examples. -/
def Obligations.DeltaIsExactAndSigned : Prop :=
  (∀ old new : Pixel, pixelDelta old new = (new.toNat : Int) - (old.toNat : Int) ∧ -65535 ≤ pixelDelta old new ∧
    pixelDelta old new ≤ 65535 ∧ (pixelDelta old new = 0 ↔ old = new) ∧
    (BitVec.ofInt 32 (pixelDelta old new)).toInt = pixelDelta old new) ∧
  (∀ (m : Memory) (a : Nat) (d : DiffRecord),
    memRead (m.writeBytes a (diffBytes d)) (a + 8) 4 = some (BitVec.ofInt 32 d.delta).toNat) ∧
  BitVec.ofInt 32 1 = 0x00000001#32 ∧ BitVec.ofInt 32 (-1) = 0xFFFFFFFF#32 ∧
  BitVec.ofInt 32 65535 = 0x0000FFFF#32 ∧ BitVec.ofInt 32 (-65535) = 0xFFFF0001#32

/-- R204: diff(s, s) is empty; diff(a, b) is empty exactly when a = b; unequal lengths always fail; applying the records
to a gives b, and an index no record names has a[i] = b[i]. -/
def Obligations.DiffProperties : Prop :=
  (∀ s : List Pixel, diff s s = .ok []) ∧
  (∀ a b : List Pixel, diff a b = .ok [] ↔ a = b) ∧
  (∀ a b : List Pixel, a.length ≠ b.length → diff a b = .error ⟨.lengthMismatch, 0#32⟩) ∧
  ∀ (a b : List Pixel) (ds : List DiffRecord), diff a b = .ok ds →
    ds.foldl (fun l d => l.set d.index d.new) a = b ∧ ∀ i, (∀ d ∈ ds, d.index ≠ i) → a[i]? = b[i]?

/-- R202: DIFF with LEN_A ≠ LEN_B raises LENGTH_MISMATCH with ERR_INFO 0, whatever the other operands and BUF are, and
writes nothing. -/
def Obligations.UnequalLengthsMismatch : Prop :=
  ∀ (s : State) (p : Pending), s.Enabled p → p.op.lenA ≠ p.op.lenB → exec .diff s = .next (s.failed 0x2#4 0#32)

/-! ## The checks common to the buffer commands (40_command_cycle.md) -/

/-- R126: the first operand, in id order, whose base is no multiple of its element's alignment raises ALIGN with its id,
also when it has no elements; DIFF's lengths are compared before (R230). QBUF's RGB888 source raises none: with DST even
QBUF never completes with ALIGN. -/
def Obligations.MisalignedBaseRaisesAlign : Prop :=
  ∀ (s : State) (p : Pending), s.Enabled p →
    (p.op.dst.toNat % 2 ≠ 0 → exec .qbuf s = .next (s.failed 0x6#4 3#32)) ∧
    (p.op.dst.toNat % 2 = 0 → ∀ t, exec .qbuf s = .next t → t.err ≠ 0x6#4) ∧
    (p.op.srcA.toNat % 2 ≠ 0 → exec .encode s = .next (s.failed 0x6#4 1#32)) ∧
    (p.op.srcA.toNat % 2 = 0 → p.op.dst.toNat % 4 ≠ 0 → exec .encode s = .next (s.failed 0x6#4 3#32)) ∧
    (p.op.srcA.toNat % 4 ≠ 0 → exec .decode s = .next (s.failed 0x6#4 1#32)) ∧
    (p.op.srcA.toNat % 4 = 0 → p.op.dst.toNat % 2 ≠ 0 → exec .decode s = .next (s.failed 0x6#4 3#32)) ∧
    (p.op.lenA = p.op.lenB →
      (p.op.srcA.toNat % 2 ≠ 0 → exec .diff s = .next (s.failed 0x6#4 1#32)) ∧
      (p.op.srcA.toNat % 2 = 0 → p.op.srcB.toNat % 2 ≠ 0 → exec .diff s = .next (s.failed 0x6#4 2#32)) ∧
      (p.op.srcA.toNat % 2 = 0 → p.op.srcB.toNat % 2 = 0 → p.op.dst.toNat % 4 ≠ 0 →
        exec .diff s = .next (s.failed 0x6#4 3#32)))

/-- R127: with every base aligned, the first operand, in id order, whose non-empty region leaves BUF raises RANGE with
its id, in exact arithmetic. That an empty source does not spare the DST capacity region the check is the model's choice
between two sentences of the spec (log 21). -/
def Obligations.RegionOutsideBufRaisesRange : Prop :=
  ∀ (s : State) (p : Pending), s.Enabled p →
    (p.op.dst.toNat % 2 = 0 →
      (¬RegionFits s.bufBytes p.op.srcA.toNat (3 * p.op.lenA.toNat) → exec .qbuf s = .next (s.failed 0x5#4 1#32)) ∧
      (RegionFits s.bufBytes p.op.srcA.toNat (3 * p.op.lenA.toNat) →
        ¬RegionFits s.bufBytes p.op.dst.toNat (2 * p.op.dstCap.toNat) →
        exec .qbuf s = .next (s.failed 0x5#4 3#32))) ∧
    (p.op.srcA.toNat % 2 = 0 → p.op.dst.toNat % 4 = 0 →
      (¬RegionFits s.bufBytes p.op.srcA.toNat (2 * p.op.lenA.toNat) → exec .encode s = .next (s.failed 0x5#4 1#32)) ∧
      (RegionFits s.bufBytes p.op.srcA.toNat (2 * p.op.lenA.toNat) →
        ¬RegionFits s.bufBytes p.op.dst.toNat (8 * p.op.dstCap.toNat) →
        exec .encode s = .next (s.failed 0x5#4 3#32))) ∧
    (p.op.srcA.toNat % 4 = 0 → p.op.dst.toNat % 2 = 0 →
      (¬RegionFits s.bufBytes p.op.srcA.toNat (8 * p.op.lenA.toNat) → exec .decode s = .next (s.failed 0x5#4 1#32)) ∧
      (RegionFits s.bufBytes p.op.srcA.toNat (8 * p.op.lenA.toNat) →
        ¬RegionFits s.bufBytes p.op.dst.toNat (2 * p.op.dstCap.toNat) →
        exec .decode s = .next (s.failed 0x5#4 3#32))) ∧
    (p.op.lenA = p.op.lenB → p.op.srcA.toNat % 2 = 0 → p.op.srcB.toNat % 2 = 0 → p.op.dst.toNat % 4 = 0 →
      (¬RegionFits s.bufBytes p.op.srcA.toNat (2 * p.op.lenA.toNat) → exec .diff s = .next (s.failed 0x5#4 1#32)) ∧
      (RegionFits s.bufBytes p.op.srcA.toNat (2 * p.op.lenA.toNat) →
        ¬RegionFits s.bufBytes p.op.srcB.toNat (2 * p.op.lenB.toNat) →
        exec .diff s = .next (s.failed 0x5#4 2#32)) ∧
      (RegionFits s.bufBytes p.op.srcA.toNat (2 * p.op.lenA.toNat) →
        RegionFits s.bufBytes p.op.srcB.toNat (2 * p.op.lenB.toNat) →
        ¬RegionFits s.bufBytes p.op.dst.toNat (12 * p.op.dstCap.toNat) →
        exec .diff s = .next (s.failed 0x5#4 3#32)))

/-- R128: with every base aligned and every region in range, a destination capacity region that shares an address with
a source raises OVERLAP with the id of the first such source; a DIFF whose destination shares none never does, however
SRC_A and SRC_B lie. -/
def Obligations.DestinationOverSourceRaisesOverlap : Prop :=
  ∀ (s : State) (p : Pending), s.Enabled p →
    (p.op.dst.toNat % 2 = 0 → RegionFits s.bufBytes p.op.srcA.toNat (3 * p.op.lenA.toNat) →
      RegionFits s.bufBytes p.op.dst.toNat (2 * p.op.dstCap.toNat) →
      ¬RegionsApart p.op.dst.toNat (2 * p.op.dstCap.toNat) p.op.srcA.toNat (3 * p.op.lenA.toNat) →
      exec .qbuf s = .next (s.failed 0x7#4 1#32)) ∧
    (p.op.srcA.toNat % 2 = 0 → p.op.dst.toNat % 4 = 0 → RegionFits s.bufBytes p.op.srcA.toNat (2 * p.op.lenA.toNat) →
      RegionFits s.bufBytes p.op.dst.toNat (8 * p.op.dstCap.toNat) →
      ¬RegionsApart p.op.dst.toNat (8 * p.op.dstCap.toNat) p.op.srcA.toNat (2 * p.op.lenA.toNat) →
      exec .encode s = .next (s.failed 0x7#4 1#32)) ∧
    (p.op.srcA.toNat % 4 = 0 → p.op.dst.toNat % 2 = 0 → RegionFits s.bufBytes p.op.srcA.toNat (8 * p.op.lenA.toNat) →
      RegionFits s.bufBytes p.op.dst.toNat (2 * p.op.dstCap.toNat) →
      ¬RegionsApart p.op.dst.toNat (2 * p.op.dstCap.toNat) p.op.srcA.toNat (8 * p.op.lenA.toNat) →
      exec .decode s = .next (s.failed 0x7#4 1#32)) ∧
    (p.op.lenA = p.op.lenB → p.op.srcA.toNat % 2 = 0 → p.op.srcB.toNat % 2 = 0 → p.op.dst.toNat % 4 = 0 →
      RegionFits s.bufBytes p.op.srcA.toNat (2 * p.op.lenA.toNat) →
      RegionFits s.bufBytes p.op.srcB.toNat (2 * p.op.lenB.toNat) →
      RegionFits s.bufBytes p.op.dst.toNat (12 * p.op.dstCap.toNat) →
      (¬RegionsApart p.op.dst.toNat (12 * p.op.dstCap.toNat) p.op.srcA.toNat (2 * p.op.lenA.toNat) →
        exec .diff s = .next (s.failed 0x7#4 1#32)) ∧
      (RegionsApart p.op.dst.toNat (12 * p.op.dstCap.toNat) p.op.srcA.toNat (2 * p.op.lenA.toNat) →
        ¬RegionsApart p.op.dst.toNat (12 * p.op.dstCap.toNat) p.op.srcB.toNat (2 * p.op.lenB.toNat) →
        exec .diff s = .next (s.failed 0x7#4 2#32)) ∧
      (RegionsApart p.op.dst.toNat (12 * p.op.dstCap.toNat) p.op.srcA.toNat (2 * p.op.lenA.toNat) →
        RegionsApart p.op.dst.toNat (12 * p.op.dstCap.toNat) p.op.srcB.toNat (2 * p.op.lenB.toNat) →
        ∀ t, exec .diff s = .next t → t.err ≠ 0x7#4))

/-- R129: a command whose output needs more elements than DST_CAP raises CAPACITY with the exact number, saturated at
0xFFFFFFFF; for DECODE the sum is exact, and the counts are all at least 1. -/
def Obligations.OutputBeyondCapacityRaisesCapacity : Prop :=
  ∀ (s : State) (p : Pending), s.Enabled p →
    (∀ px : List (Byte × Byte × Byte), QbufReady s.bufBytes p.op → px.length = p.op.lenA.toNat →
      HoldsRgb s.buf p.op.srcA.toNat px → p.op.dstCap.toNat < p.op.lenA.toNat →
      exec .qbuf s = .next (s.failed 0x8#4 p.op.lenA)) ∧
    (∀ seq : List Pixel, EncodeReady s.bufBytes p.op → seq.length = p.op.lenA.toNat →
      HoldsPixels s.buf p.op.srcA.toNat seq → p.op.dstCap.toNat < (encodeRuns seq).length →
      exec .encode s = .next (s.failed 0x8#4 (BitVec.ofNat 32 (encodeRuns seq).length))) ∧
    (∀ runs : List Run, DecodeReady s.bufBytes p.op → runs.length = p.op.lenA.toNat →
      HoldsRuns s.buf p.op.srcA.toNat runs → (∀ r ∈ runs, 1 ≤ r.count) →
      p.op.dstCap.toNat < (runs.map Run.count).sum →
      exec .decode s = .next (s.failed 0x8#4 (BitVec.ofNat 32 (min (runs.map Run.count).sum 0xFFFFFFFF)))) ∧
    ∀ (a b : List Pixel) (ds : List DiffRecord), DiffReady s.bufBytes p.op → a.length = p.op.lenA.toNat →
      b.length = p.op.lenB.toNat → HoldsPixels s.buf p.op.srcA.toNat a → HoldsPixels s.buf p.op.srcB.toNat b →
      diff a b = .ok ds → p.op.dstCap.toNat < ds.length →
      exec .diff s = .next (s.failed 0x8#4 (BitVec.ofNat 32 ds.length))

/-- R135: once the operand checks pass, any unwritten source byte of those R69 lists is the model fault UNINIT_READ,
even where a content check or CAPACITY would fail; a command that fails an earlier check, an illegal word included, reads
no BUF byte, so its outcome is the same whatever BUF holds. -/
def Obligations.UnwrittenSourceByteFaults : Prop :=
  (∀ (s : State) (p : Pending), s.Enabled p →
    (QbufReady s.bufBytes p.op → ∀ k, k < 3 * p.op.lenA.toNat → s.buf.get (p.op.srcA.toNat + k) = none →
      exec .qbuf s = .fault .uninitRead) ∧
    (EncodeReady s.bufBytes p.op → ∀ k, k < 2 * p.op.lenA.toNat → s.buf.get (p.op.srcA.toNat + k) = none →
      exec .encode s = .fault .uninitRead) ∧
    (DecodeReady s.bufBytes p.op → ∀ k j, k < p.op.lenA.toNat → j ∈ [0, 1, 4, 5, 6, 7] →
      s.buf.get (p.op.srcA.toNat + 8 * k + j) = none → exec .decode s = .fault .uninitRead) ∧
    (DiffReady s.bufBytes p.op → ∀ k, k < 2 * p.op.lenA.toNat →
      s.buf.get (p.op.srcA.toNat + k) = none ∨ s.buf.get (p.op.srcB.toNat + k) = none →
      exec .diff s = .fault .uninitRead)) ∧
  ∀ (s : State) (m : Memory) (code : BitVec 4) (info : Word), code ∈ [0x2#4, 0x4#4, 0x5#4, 0x6#4, 0x7#4] →
    engineStep s = .next (s.failed code info) →
    engineStep { s with buf := m } = .next (({ s with buf := m } : State).failed code info)

/-- R133, R131, R132, R220, R233: every completion, of a command or of an illegal word, either fails and changes nothing
but RESULT, ERR_INFO, ERR, DONE and PENDING, or succeeds with ERR = 0x0 and ERR_INFO = 0. -/
def Obligations.CompletionIsAllOrNothing : Prop :=
  ∀ (s t : State), engineStep s = .next t →
    (t.err ≠ 0x0#4 → t = s.failed t.err t.errInfo) ∧ (t.err = 0x0#4 → SucceedsWith s t.result t)

/-- R134: a successful command writes exactly its output elements: every byte of elements 0 .. RESULT-1 of DST is
written, and every other byte keeps its earlier content; QPIX writes none. -/
def Obligations.SuccessWritesExactlyItsOutput : Prop :=
  ∀ (i : Instr) (s t : State) (p : Pending), s.Enabled p → exec i s = .next t → t.err = 0x0#4 →
    SameOutside s.buf t.buf p.op.dst.toNat (outputSize i * t.result.toNat) ∧
    ∀ k, k < outputSize i * t.result.toNat → t.buf.get (p.op.dst.toNat + k) ≠ none

/-- R138: no command writes an operand register or CTRL; and no step of the engine does. -/
def Obligations.CommandsKeepOperandsAndCtrl : Prop :=
  (∀ (i : Instr) (s t : State), exec i s = .next t → t.ops = s.ops ∧ t.ie = s.ie) ∧
  ∀ (s t : State), engineStep s = .next t → t.ops = s.ops ∧ t.ie = s.ie

/-- R122: acceptance copies all six operand registers; the engine step reads only the copies, so a host write to an
operand register while the command is pending leaves PENDING and the outcome as they were. -/
def Obligations.CommandsUseLatchedOperands : Prop :=
  (∀ (s t : State) w, s.pending = none → s.hostWrite (.reg 0x10) 4 w = .ok t → t.pending = some ⟨w, s.ops⟩) ∧
  (∀ (s t : State) off v, 0x14 ≤ off → off ≤ 0x28 → s.hostWrite (.reg off) 4 v = .ok t → t.pending = s.pending) ∧
  ∀ (s : State) (o : OperandRegs),
    (∀ t, engineStep s = .next t → engineStep { s with ops := o } = .next { t with ops := o }) ∧
    ∀ r, engineStep s = .fault r → engineStep { s with ops := o } = .fault r

/-! ## The whole machine -/

/-- Every step keeps the invariant: legal parameters, BUF canonical and inside [0, BUF_BYTES), a legal error code
(R229), and outcome registers that fit it (R40, R41, R136). -/
def Obligations.StepKeepsInvariant : Prop := ∀ (s t : State), s.Inv → step s = .next t → t.Inv

/-- The state after reset meets the invariant. -/
def Obligations.ResetMeetsInvariant : Prop := State.reset.Inv

/-- R137, with the order of moves of log 3: from any state with a command pending and no reset in the host's script,
after at most one step more than the delay the command has completed, unless the host broke its contract first. -/
def Obligations.PendingCommandCompletes : Prop :=
  ∀ (s : State) (p : Pending), s.Enabled p → (∀ h ∈ s.env.script, h ≠ .reset) →
    ∃ n, n ≤ s.env.delay + 1 ∧ ((advanceBy n s).fault ≠ none ∨
      ((advanceBy n s).pending = none ∧ (advanceBy n s).done = true))

/-- R271, with the order of moves of log 3 and WAIT as one read a step (log 14): a WAIT loop reads STATUS with BUSY = 1 exactly `delay` times, then the
engine step happens, then it reads BUSY = 0 and ends; the PXC is then as the engine step leaves it, whatever the
delay. -/
def Obligations.WaitEndsAfterCompletion : Prop :=
  ∀ (k : Nat) (s t : State) (p : Pending) (rest : List HostStep), s.Enabled p → s.env.delay = k →
    s.env.script = .wait :: rest → engineStep s = .next t →
    s.statusWord.getLsbD 0 = true ∧ t.statusWord.getLsbD 0 = false ∧
    advanceBy (k + 2) s = { t with env := { s.env with
      script := rest, delay := 0, readLog := t.statusWord :: (List.replicate k s.statusWord ++ s.env.readLog) } }

/-- R255, R120, R121, with the order of moves of log 3: of two CMD writes in a row from idle the first is accepted; if
the engine step does not fall between them the second is dropped and CMDOVR is set; if it does, the second is accepted
too, with CMDOVR as it was. -/
def Obligations.BackToBackCommands : Prop :=
  ∀ (s : State) (w₁ w₂ : Word) (rest : List HostStep), s.fault = none → s.pending = none →
    s.env.script = .write (.reg 0x10) 4 w₁ :: .write (.reg 0x10) 4 w₂ :: rest →
    (advance s).pending = some ⟨w₁, s.ops⟩ ∧
    ((advance s).env.delay ≠ 0 →
      (advanceBy 2 s).pending = some ⟨w₁, s.ops⟩ ∧ (advanceBy 2 s).cmdovr = true) ∧
    ((advance s).env.delay = 0 → ∀ t, engineStep (advance s) = .next t →
      (advanceBy 3 s).pending = some ⟨w₂, s.ops⟩ ∧ (advanceBy 3 s).cmdovr = s.cmdovr ∧
      (advanceBy 3 s).result = t.result ∧ (advanceBy 3 s).err = t.err)
end

