-- ==== Sys2Proof/Laws/Decode.lean ====
section
/-! SUPPORT. The bits of a command word, and what a decoded word is. -/

namespace Sys2Proof

/-- QPIX's word bit by bit: OPC, blue, green, red (30_encoding.md R90). -/
theorem encode_qpix_getLsbD (r g b : Byte) (i : Nat) : (encode (.qpix r g b)).getLsbD i =
    if i < 8 then decide (i = 0) else if i < 16 then b.getLsbD (i - 8) else if i < 24 then g.getLsbD (i - 16)
    else r.getLsbD (i - 24) := by
  change @BitVec.getLsbD (8 + 8 + 8 + 8) (r ++ g ++ b ++ 1#8) i = _
  simp only [BitVec.getLsbD_append]
  by_cases h1 : i < 8
  · simp [h1]
  · by_cases h2 : i < 16
    · simp [h1, h2, show i - 8 < 8 by omega]
    · by_cases h3 : i < 24
      · simp [h1, h2, h3, show ¬ i - 8 < 8 by omega, show i - 16 < 8 by omega, Nat.sub_sub]
      · simp [h1, h2, h3, show ¬ i - 8 < 8 by omega, show ¬ i - 16 < 8 by omega, Nat.sub_sub]

theorem opcodeField_encode_qpix (r g b : Byte) : opcodeField (encode (.qpix r g b)) = 0x01#8 := by
  refine BitVec.eq_of_getLsbD_eq fun i hi => ?_
  simp [opcodeField, encode_qpix_getLsbD, hi]

theorem p0Field_encode_qpix (r g b : Byte) : p0Field (encode (.qpix r g b)) = b := by
  refine BitVec.eq_of_getLsbD_eq fun i hi => ?_
  simp [p0Field, encode_qpix_getLsbD, hi, show 8 + i < 16 by omega]

theorem p1Field_encode_qpix (r g b : Byte) : p1Field (encode (.qpix r g b)) = g := by
  refine BitVec.eq_of_getLsbD_eq fun i hi => ?_
  simp [p1Field, encode_qpix_getLsbD, hi, show ¬ 16 + i < 8 by omega, show ¬ 16 + i < 16 by omega,
    show 16 + i < 24 by omega]

theorem p2Field_encode_qpix (r g b : Byte) : p2Field (encode (.qpix r g b)) = r := by
  refine BitVec.eq_of_getLsbD_eq fun i hi => ?_
  simp [p2Field, encode_qpix_getLsbD, hi, show ¬ 24 + i < 8 by omega, show ¬ 24 + i < 16 by omega,
    show ¬ 24 + i < 24 by omega]

theorem requireUpperZero_ok {cmd : Word} {i j : Instr} (h : requireUpperZero cmd i = .ok j) :
    i = j ∧ cmd.extractLsb' 8 24 = 0#24 := by
  unfold requireUpperZero at h
  split at h
  · rename_i hz
    exact ⟨by simpa using h, hz⟩
  · cases h

/-- A word is its opcode and its upper 24 bits. -/
theorem word_ext {x y : Word} (h1 : x.extractLsb' 0 8 = y.extractLsb' 0 8)
    (h2 : x.extractLsb' 8 24 = y.extractLsb' 8 24) : x = y := by
  refine BitVec.eq_of_getLsbD_eq fun i hi => ?_
  by_cases h : i < 8
  · simpa [h] using congrArg (fun v => v.getLsbD i) h1
  · simpa [show i - 8 < 24 by omega, show 8 + (i - 8) = i by omega] using congrArg (fun v => v.getLsbD (i - 8)) h2

end Sys2Proof
end

