-- ==== Sys2Proof/Laws/State.lean ====
section
/-! SUPPORT. One lemma per field per update of State, true by rfl, so that no later proof unfolds a record update. -/

namespace Sys2Proof.Machine

variable (s : State) (e : CmdError) (r : Word) (m : Memory) (w v : Word) (rest : List HostStep) (f : Fault)

/-! ## Completions -/

@[simp] theorem State.completeError_params : (s.completeError e).params = s.params := rfl
@[simp] theorem State.completeError_ie : (s.completeError e).ie = s.ie := rfl
@[simp] theorem State.completeError_done : (s.completeError e).done = true := rfl
@[simp] theorem State.completeError_cmdovr : (s.completeError e).cmdovr = s.cmdovr := rfl
@[simp] theorem State.completeError_err : (s.completeError e).err = e.name.code := rfl
@[simp] theorem State.completeError_ops : (s.completeError e).ops = s.ops := rfl
@[simp] theorem State.completeError_result : (s.completeError e).result = 0#32 := rfl
@[simp] theorem State.completeError_errInfo : (s.completeError e).errInfo = e.info := rfl
@[simp] theorem State.completeError_pending : (s.completeError e).pending = none := rfl
@[simp] theorem State.completeError_buf : (s.completeError e).buf = s.buf := rfl
@[simp] theorem State.completeError_fault : (s.completeError e).fault = s.fault := rfl
@[simp] theorem State.completeError_env : (s.completeError e).env = s.env := rfl

@[simp] theorem State.completeOk_params : (s.completeOk r m).params = s.params := rfl
@[simp] theorem State.completeOk_ie : (s.completeOk r m).ie = s.ie := rfl
@[simp] theorem State.completeOk_done : (s.completeOk r m).done = true := rfl
@[simp] theorem State.completeOk_cmdovr : (s.completeOk r m).cmdovr = s.cmdovr := rfl
@[simp] theorem State.completeOk_err : (s.completeOk r m).err = 0x0#4 := rfl
@[simp] theorem State.completeOk_ops : (s.completeOk r m).ops = s.ops := rfl
@[simp] theorem State.completeOk_result : (s.completeOk r m).result = r := rfl
@[simp] theorem State.completeOk_errInfo : (s.completeOk r m).errInfo = 0#32 := rfl
@[simp] theorem State.completeOk_pending : (s.completeOk r m).pending = none := rfl
@[simp] theorem State.completeOk_buf : (s.completeOk r m).buf = m := rfl
@[simp] theorem State.completeOk_fault : (s.completeOk r m).fault = s.fault := rfl
@[simp] theorem State.completeOk_env : (s.completeOk r m).env = s.env := rfl

/-! ## Acceptance, the STATUS and CTRL writes, the fetch latch -/

@[simp] theorem State.accept_params : (s.accept w).params = s.params := rfl
@[simp] theorem State.accept_ie : (s.accept w).ie = s.ie := rfl
@[simp] theorem State.accept_done : (s.accept w).done = false := rfl
@[simp] theorem State.accept_cmdovr : (s.accept w).cmdovr = s.cmdovr := rfl
@[simp] theorem State.accept_err : (s.accept w).err = s.err := rfl
@[simp] theorem State.accept_ops : (s.accept w).ops = s.ops := rfl
@[simp] theorem State.accept_result : (s.accept w).result = s.result := rfl
@[simp] theorem State.accept_errInfo : (s.accept w).errInfo = s.errInfo := rfl
@[simp] theorem State.accept_pending : (s.accept w).pending = some { cmd := w, op := s.ops } := rfl
@[simp] theorem State.accept_buf : (s.accept w).buf = s.buf := rfl
@[simp] theorem State.accept_fault : (s.accept w).fault = s.fault := rfl
@[simp] theorem State.accept_env : (s.accept w).env = s.env.drawDelay := rfl

@[simp] theorem State.writeStatus_done : (s.writeStatus v).done = (s.done && !v.getLsbD 1) := rfl
@[simp] theorem State.writeStatus_cmdovr : (s.writeStatus v).cmdovr = (s.cmdovr && !v.getLsbD 2) := rfl
@[simp] theorem State.writeStatus_params : (s.writeStatus v).params = s.params := rfl
@[simp] theorem State.writeStatus_ie : (s.writeStatus v).ie = s.ie := rfl
@[simp] theorem State.writeStatus_err : (s.writeStatus v).err = s.err := rfl
@[simp] theorem State.writeStatus_ops : (s.writeStatus v).ops = s.ops := rfl
@[simp] theorem State.writeStatus_result : (s.writeStatus v).result = s.result := rfl
@[simp] theorem State.writeStatus_errInfo : (s.writeStatus v).errInfo = s.errInfo := rfl
@[simp] theorem State.writeStatus_pending : (s.writeStatus v).pending = s.pending := rfl
@[simp] theorem State.writeStatus_buf : (s.writeStatus v).buf = s.buf := rfl
@[simp] theorem State.writeStatus_fault : (s.writeStatus v).fault = s.fault := rfl
@[simp] theorem State.writeStatus_env : (s.writeStatus v).env = s.env := rfl

@[simp] theorem State.writeCtrl_ie : (s.writeCtrl v).ie = v.getLsbD 0 := rfl
@[simp] theorem State.writeCtrl_params : (s.writeCtrl v).params = s.params := rfl
@[simp] theorem State.writeCtrl_done : (s.writeCtrl v).done = s.done := rfl
@[simp] theorem State.writeCtrl_cmdovr : (s.writeCtrl v).cmdovr = s.cmdovr := rfl
@[simp] theorem State.writeCtrl_err : (s.writeCtrl v).err = s.err := rfl
@[simp] theorem State.writeCtrl_ops : (s.writeCtrl v).ops = s.ops := rfl
@[simp] theorem State.writeCtrl_result : (s.writeCtrl v).result = s.result := rfl
@[simp] theorem State.writeCtrl_errInfo : (s.writeCtrl v).errInfo = s.errInfo := rfl
@[simp] theorem State.writeCtrl_pending : (s.writeCtrl v).pending = s.pending := rfl
@[simp] theorem State.writeCtrl_buf : (s.writeCtrl v).buf = s.buf := rfl
@[simp] theorem State.writeCtrl_fault : (s.writeCtrl v).fault = s.fault := rfl
@[simp] theorem State.writeCtrl_env : (s.writeCtrl v).env = s.env := rfl

@[simp] theorem State.latch_pending : (s.latch w).pending = some { cmd := w, op := s.ops } := rfl
@[simp] theorem State.latch_fault : (s.latch w).fault = s.fault := rfl
@[simp] theorem State.latch_buf : (s.latch w).buf = s.buf := rfl
@[simp] theorem State.latch_ops : (s.latch w).ops = s.ops := rfl
@[simp] theorem State.latch_params : (s.latch w).params = s.params := rfl
@[simp] theorem State.latch_delay : (s.latch w).env.delay = 0 := rfl

/-! ## The host's side, reset and FAULT -/

@[simp] theorem State.issue_params : (s.issue rest).params = s.params := rfl
@[simp] theorem State.issue_ie : (s.issue rest).ie = s.ie := rfl
@[simp] theorem State.issue_done : (s.issue rest).done = s.done := rfl
@[simp] theorem State.issue_cmdovr : (s.issue rest).cmdovr = s.cmdovr := rfl
@[simp] theorem State.issue_err : (s.issue rest).err = s.err := rfl
@[simp] theorem State.issue_ops : (s.issue rest).ops = s.ops := rfl
@[simp] theorem State.issue_result : (s.issue rest).result = s.result := rfl
@[simp] theorem State.issue_errInfo : (s.issue rest).errInfo = s.errInfo := rfl
@[simp] theorem State.issue_pending : (s.issue rest).pending = s.pending := rfl
@[simp] theorem State.issue_buf : (s.issue rest).buf = s.buf := rfl
@[simp] theorem State.issue_fault : (s.issue rest).fault = s.fault := rfl
@[simp] theorem State.issue_script : (s.issue rest).env.script = rest := rfl
@[simp] theorem State.issue_delay : (s.issue rest).env.delay = s.env.delay - 1 := rfl
@[simp] theorem State.issue_busy : (s.issue rest).busy = s.busy := rfl

@[simp] theorem State.logRead_params : (s.logRead v).params = s.params := rfl
@[simp] theorem State.logRead_ie : (s.logRead v).ie = s.ie := rfl
@[simp] theorem State.logRead_done : (s.logRead v).done = s.done := rfl
@[simp] theorem State.logRead_cmdovr : (s.logRead v).cmdovr = s.cmdovr := rfl
@[simp] theorem State.logRead_err : (s.logRead v).err = s.err := rfl
@[simp] theorem State.logRead_ops : (s.logRead v).ops = s.ops := rfl
@[simp] theorem State.logRead_result : (s.logRead v).result = s.result := rfl
@[simp] theorem State.logRead_errInfo : (s.logRead v).errInfo = s.errInfo := rfl
@[simp] theorem State.logRead_pending : (s.logRead v).pending = s.pending := rfl
@[simp] theorem State.logRead_buf : (s.logRead v).buf = s.buf := rfl
@[simp] theorem State.logRead_fault : (s.logRead v).fault = s.fault := rfl
@[simp] theorem State.logRead_script : (s.logRead v).env.script = s.env.script := rfl
@[simp] theorem State.logRead_delay : (s.logRead v).env.delay = s.env.delay := rfl
@[simp] theorem State.logRead_readLog : (s.logRead v).env.readLog = v :: s.env.readLog := rfl

@[simp] theorem State.afterReset_params : s.afterReset.params = s.params := rfl
@[simp] theorem State.afterReset_ie : s.afterReset.ie = false := rfl
@[simp] theorem State.afterReset_done : s.afterReset.done = false := rfl
@[simp] theorem State.afterReset_cmdovr : s.afterReset.cmdovr = false := rfl
@[simp] theorem State.afterReset_err : s.afterReset.err = 0x0#4 := rfl
@[simp] theorem State.afterReset_ops : s.afterReset.ops = OperandRegs.reset := rfl
@[simp] theorem State.afterReset_result : s.afterReset.result = 0#32 := rfl
@[simp] theorem State.afterReset_errInfo : s.afterReset.errInfo = 0#32 := rfl
@[simp] theorem State.afterReset_pending : s.afterReset.pending = none := rfl
@[simp] theorem State.afterReset_buf : s.afterReset.buf = [] := rfl
@[simp] theorem State.afterReset_fault : s.afterReset.fault = s.fault := rfl
@[simp] theorem State.afterReset_env : s.afterReset.env = s.env := rfl

@[simp] theorem State.recordFault_fault : (s.recordFault f).fault = some f := rfl
@[simp] theorem State.recordFault_buf : (s.recordFault f).buf = s.buf := rfl
@[simp] theorem State.recordFault_pending : (s.recordFault f).pending = s.pending := rfl

end Sys2Proof.Machine
end

