-- ==== Sys2Proof/Laws/Flags.lean ====
section
/-! SUPPORT. The bits of STATUS and CTRL as read. -/

namespace Sys2Proof.Machine

/-- STATUS bit by bit (10_state.md R27). -/
theorem statusWord_getLsbD (s : State) (i : Nat) : s.statusWord.getLsbD i =
    if i = 0 then s.busy else if i = 1 then s.done else if i = 2 then s.cmdovr
    else if 8 ≤ i ∧ i < 12 then s.err.getLsbD (i - 8) else false := by
  change @BitVec.getLsbD (20 + 4 + 5 + 1 + 1 + 1) (0#20 ++ s.err ++ 0#5 ++ BitVec.ofBool s.cmdovr ++
    BitVec.ofBool s.done ++ BitVec.ofBool s.busy) i = _
  simp only [BitVec.getLsbD_append, BitVec.getLsbD_ofBool, BitVec.getLsbD_zero]
  rcases i with _ | _ | _ | i
  · simp
  · simp
  · simp
  · by_cases h : 5 ≤ i ∧ i < 9
    · simp [show ¬ i < 5 by omega, show i - 5 < 4 by omega, h.1, show i + 1 + 1 + 1 < 12 by omega]
    · by_cases h1 : i < 5
      · simp [h1, show ¬ 5 ≤ i by omega]
      · simp [show ¬ i - 5 < 4 by omega, show ¬ i + 1 + 1 + 1 < 12 by omega]

/-- CTRL bit by bit (10_state.md R26). -/
theorem ctrlWord_getLsbD (s : State) (i : Nat) : s.ctrlWord.getLsbD i = if i = 0 then s.ie else false := by
  change @BitVec.getLsbD (31 + 1) (0#31 ++ BitVec.ofBool s.ie) i = _
  simp only [BitVec.getLsbD_append, BitVec.getLsbD_ofBool, BitVec.getLsbD_zero]
  rcases i with _ | i <;> simp

end Sys2Proof.Machine
end

