-- ==== Sys2Proof/Laws/Memory.lean ====
section
/-! SUPPORT. What the BUF operations do: a read after a write, the cells a write leaves alone, and the canonical form. -/

namespace Sys2Proof.Machine

/-! ## Bytes -/

@[simp] theorem leBytes_length (n v : Nat) : (leBytes n v).length = n := by
  induction n generalizing v with
  | zero => rfl
  | succ n ih => simp [leBytes, ih]

/-! ## One cell -/

theorem get_cons (c : Host.Cell) (m : Memory) (x : Nat) :
    Memory.get (c :: m) x = if x = c.1 then some c.2 else Memory.get m x := by
  obtain ⟨k, v⟩ := c
  by_cases h : x = k
  · simp [Memory.get, List.lookup, h]
  · simp [Memory.get, List.lookup, h, beq_eq_false_iff_ne.mpr h]

theorem get_append (m m' : Memory) (x : Nat) :
    Memory.get (m ++ m') x = (Memory.get m x).or (Memory.get m' x) := by
  induction m with
  | nil => rfl
  | cons c m ih =>
    rw [List.cons_append, get_cons, get_cons, ih]
    split <;> simp

theorem get_filter (m : Memory) (q : Nat → Bool) (x : Nat) :
    Memory.get (m.filter fun c => q c.1) x = if q x then Memory.get m x else none := by
  induction m with
  | nil => simp [Memory.get, List.lookup]
  | cons c m ih =>
    by_cases hq : q c.1
    · rw [List.filter_cons_of_pos (by simpa using hq), get_cons, get_cons, ih]
      by_cases hx : x = c.1
      · simp [hx, hq]
      · simp [hx]
    · rw [List.filter_cons_of_neg (by simpa using hq), ih, get_cons]
      by_cases hx : x = c.1
      · simp [hx, hq]
      · simp [hx]

theorem get_cellsFrom (a : Nat) (bs : List Byte) (x : Nat) :
    Memory.get (cellsFrom a bs) x = if a ≤ x then bs[x - a]? else none := by
  induction bs generalizing a with
  | nil => simp [cellsFrom, Memory.get]
  | cons b bs ih =>
    rw [cellsFrom, get_cons, ih]
    rcases Nat.lt_trichotomy x a with h | h | h
    · rw [if_neg (by simp; omega), if_neg (by omega), if_neg (by omega)]
    · simp [h]
    · rw [if_neg (by simp; omega), if_pos (by omega), if_pos (by omega)]
      obtain ⟨d, rfl⟩ : ∃ d, x = a + 1 + d := ⟨x - (a + 1), by omega⟩
      simp [show a + 1 + d - (a + 1) = d by omega, show a + 1 + d - a = d + 1 by omega]

/-- A write gives its bytes at its addresses and leaves every other cell as it was. -/
theorem get_writeBytes (m : Memory) (a : Nat) (bs : List Byte) (x : Nat) :
    Memory.get (m.writeBytes a bs) x = if a ≤ x ∧ x < a + bs.length then bs[x - a]? else m.get x := by
  rw [Memory.writeBytes, get_append, get_append, get_filter m (fun k => decide (k < a)),
    get_filter m (fun k => decide (a + bs.length ≤ k)), get_cellsFrom]
  by_cases h1 : x < a
  · rw [if_neg (by omega : ¬(a ≤ x ∧ x < a + bs.length))]
    simp [h1, show ¬ a ≤ x by omega, show ¬ a + bs.length ≤ x by omega]
  · by_cases h2 : x < a + bs.length
    · simp [show ¬ x < a by omega, show a ≤ x by omega, h2, show ¬ a + bs.length ≤ x by omega]
    · simp [show ¬ x < a by omega, show a ≤ x by omega, h2, show a + bs.length ≤ x by omega,
        show bs.length ≤ x - a by omega]

theorem get_writeBytes_outside {m : Memory} {a : Nat} {bs : List Byte} {x : Nat} (h : x < a ∨ a + bs.length ≤ x) :
    Memory.get (m.writeBytes a bs) x = m.get x := by
  rw [get_writeBytes, if_neg (by omega)]

theorem get_writeBytes_inside {m : Memory} {a : Nat} {bs : List Byte} {k : Nat} (h : k < bs.length) :
    Memory.get (m.writeBytes a bs) (a + k) = some bs[k] := by
  rw [get_writeBytes, if_pos (by omega)]
  simp [h]

/-! ## Wider reads -/

theorem memRead_succ (m : Memory) (a n : Nat) :
    memRead m a (n + 1) = match m.get a, memRead m (a + 1) n with
      | some b, some v => some (b.toNat + 256 * v)
      | _, _ => none := rfl

/-- A read depends only on the cells it reads. -/
theorem memRead_congr {m m' : Memory} {a n : Nat} (h : ∀ x, a ≤ x → x < a + n → m'.get x = m.get x) :
    memRead m' a n = memRead m a n := by
  induction n generalizing a with
  | zero => rfl
  | succ n ih =>
    rw [memRead_succ, memRead_succ, h a (by omega) (by omega), ih fun x h1 h2 => h x (by omega) (by omega)]

/-- n bytes hold a value below 256^n. -/
theorem memRead_lt {m : Memory} {a n v : Nat} (h : memRead m a n = some v) : v < 256 ^ n := by
  induction n generalizing a v with
  | zero => simp [memRead] at h; omega
  | succ n ih =>
    rw [memRead_succ] at h
    split at h
    · rename_i b w _ hw
      have := ih hw
      have hb := b.isLt
      simp only [Option.some.injEq] at h
      rw [Nat.pow_succ]
      omega
    · cases h

theorem memRead_eq_some_of_cells {m : Memory} {a n v : Nat}
    (h : ∀ k, ∀ hk : k < n, m.get (a + k) = some ((leBytes n v)[k]'(by simpa using hk))) :
    memRead m a n = some (v % 256 ^ n) := by
  induction n generalizing a v with
  | zero => simp [memRead, Nat.mod_one]
  | succ n ih =>
    have h0 := h 0 (by omega)
    simp only [leBytes, Nat.add_zero, List.getElem_cons_zero] at h0
    have ht : memRead m (a + 1) n = some (v / 256 % 256 ^ n) := by
      refine ih fun k hk => ?_
      have := h (k + 1) (by omega)
      simpa [leBytes, Nat.add_assoc, Nat.add_comm 1 k] using this
    rw [memRead_succ, h0, ht]
    have hp : 256 ^ (n + 1) = 256 * 256 ^ n := by ring
    rw [hp, Nat.mod_mul]
    simp

/-- The little-endian bytes written at an offset inside a longer write read back as their value. -/
theorem memRead_writeBytes_middle (m : Memory) (a n v : Nat) (pre post : List Byte) :
    memRead (m.writeBytes a (pre ++ leBytes n v ++ post)) (a + pre.length) n = some (v % 256 ^ n) := by
  refine memRead_eq_some_of_cells fun k hk => ?_
  have hlen : pre.length + k < (pre ++ leBytes n v ++ post).length := by simp; omega
  rw [Nat.add_assoc, get_writeBytes_inside hlen]
  simp [hk]

theorem memRead_writeBytes_outside {m : Memory} {a n x : Nat} {bs : List Byte}
    (h : x + n ≤ a ∨ a + bs.length ≤ x) : memRead (m.writeBytes a bs) x n = memRead m x n :=
  memRead_congr fun y h1 h2 => get_writeBytes_outside (by omega)

/-- A read after a write to the same place gives the value written. -/
theorem memRead_memWrite (m : Memory) (a n v : Nat) : memRead (memWrite m a n v) a n = some (v % 256 ^ n) := by
  simpa [memWrite] using memRead_writeBytes_middle m a n v [] []

/-! ## The canonical form -/

theorem mem_cellsFrom {a : Nat} {bs : List Byte} {c : Host.Cell} (h : c ∈ cellsFrom a bs) :
    a ≤ c.1 ∧ c.1 < a + bs.length := by
  induction bs generalizing a with
  | nil => cases h
  | cons b bs ih =>
    rcases List.mem_cons.mp h with rfl | h
    · simp
    · have := ih h
      simp only [List.length_cons]
      omega

theorem cellsFrom_wf (a : Nat) (bs : List Byte) : Memory.wf (cellsFrom a bs) := by
  induction bs generalizing a with
  | nil => exact .nil
  | cons b bs ih => exact .cons (fun c hc => by have := mem_cellsFrom hc; simp; omega) (ih (a + 1))

/-- A write keeps the canonical form. -/
theorem writeBytes_wf {m : Memory} (a : Nat) (bs : List Byte) (h : m.wf) : (m.writeBytes a bs).wf := by
  have hf (q : Host.Cell → Bool) : (m.filter q).Pairwise fun x y => x.1 < y.1 := h.sublist List.filter_sublist
  refine List.pairwise_append.mpr ⟨List.pairwise_append.mpr ⟨hf _, cellsFrom_wf a bs, ?_⟩, hf _, ?_⟩
  · intro x hx y hy
    have := mem_cellsFrom hy
    simp only [List.mem_filter, decide_eq_true_eq] at hx
    omega
  · intro x hx y hy
    simp only [List.mem_filter, decide_eq_true_eq] at hy
    rcases List.mem_append.mp hx with hx | hx
    · simp only [List.mem_filter, decide_eq_true_eq] at hx
      omega
    · have := mem_cellsFrom hx
      omega

theorem memWrite_wf {m : Memory} (a n v : Nat) (h : m.wf) : (memWrite m a n v).wf := writeBytes_wf a _ h

/-- A write inside [0, bound) keeps every cell there. -/
theorem writeBytes_inside {m : Memory} {a bound : Nat} {bs : List Byte} (h : ∀ c ∈ m, c.1 < bound)
    (hb : bs = [] ∨ a + bs.length ≤ bound) : ∀ c ∈ m.writeBytes a bs, c.1 < bound := by
  intro c hc
  simp only [Memory.writeBytes, List.mem_append, List.mem_filter] at hc
  rcases hc with (hc | hc) | hc
  · exact h c hc.1
  · rcases hb with rfl | hb
    · cases hc
    · have := mem_cellsFrom hc
      omega
  · exact h c hc.1

end Sys2Proof.Machine
end

