-- ==== Sys2Proof/Laws/Operands.lean ====
section
/-! SUPPORT. What the operand checks, the element reads and writes, and the engine step of a buffer command can do. -/

namespace Sys2Proof.Machine

/-! ## Checks -/

theorem firstBad_eq_none {name : ErrorName} {good : Operand → Bool} {os : List Operand} :
    firstBad name good os = none ↔ ∀ o ∈ os, good o = true := by
  unfold firstBad
  split
  · rename_i o h
    have hm := List.mem_of_find?_eq_some h
    have hg := List.find?_some h
    simp only [reduceCtorEq, false_iff, not_forall]
    exact ⟨o, hm, by simpa using hg⟩
  · rename_i h
    simpa using h

theorem firstBad_eq_some {name : ErrorName} {good : Operand → Bool} {os : List Operand} {e : CmdError}
    (h : firstBad name good os = some e) : ∃ o ∈ os, good o = false ∧ e = ⟨name, BitVec.ofNat 32 o.id⟩ := by
  unfold firstBad at h
  split at h
  · rename_i o ho
    exact ⟨o, List.mem_of_find?_eq_some ho, by simpa using List.find?_some ho, by simpa using h.symm⟩
  · cases h

/-- The checks pass exactly when every operand is aligned, every region is in range and no source is overlapped. -/
theorem operandError_eq_none {bytes : Nat} {srcs : List Operand} {dst : Operand} :
    operandError bytes srcs dst = none ↔
      (∀ o ∈ srcs ++ [dst], o.aligned = true) ∧ (∀ o ∈ srcs ++ [dst], inRange bytes o.base o.bytes = true) ∧
      ∀ o ∈ srcs, overlap dst.base dst.bytes o.base o.bytes = false := by
  unfold operandError
  split
  · rename_i e h
    simp only [reduceCtorEq, false_iff, not_and]
    intro ha
    rw [firstBad_eq_none.mpr ha] at h
    cases h
  · rename_i ha
    split
    · rename_i e h
      simp only [reduceCtorEq, false_iff, not_and]
      intro _ hr
      rw [firstBad_eq_none.mpr hr] at h
      cases h
    · rename_i hr
      rw [firstBad_eq_none]
      exact ⟨fun h => ⟨firstBad_eq_none.mp ha, firstBad_eq_none.mp hr, by simpa using h⟩, fun h => by simpa using h.2.2⟩

/-- A failed check is ALIGN, RANGE or OVERLAP, with the id of one of the operands; OVERLAP names a source. -/
theorem operandError_eq_some {bytes : Nat} {srcs : List Operand} {dst : Operand} {e : CmdError}
    (h : operandError bytes srcs dst = some e) :
    (∃ o ∈ srcs ++ [dst], (e = ⟨.align, BitVec.ofNat 32 o.id⟩ ∨ e = ⟨.range, BitVec.ofNat 32 o.id⟩)) ∨
      ∃ o ∈ srcs, e = ⟨.overlap, BitVec.ofNat 32 o.id⟩ := by
  unfold operandError at h
  split at h
  · rename_i e' he
    cases h
    obtain ⟨o, ho, -, rfl⟩ := firstBad_eq_some he
    exact .inl ⟨o, ho, .inl rfl⟩
  · split at h
    · rename_i e' he
      cases h
      obtain ⟨o, ho, -, rfl⟩ := firstBad_eq_some he
      exact .inl ⟨o, ho, .inr rfl⟩
    · obtain ⟨o, ho, -, rfl⟩ := firstBad_eq_some h
      exact .inr ⟨o, ho, rfl⟩

theorem inRange_iff {bytes base size : Nat} : inRange bytes base size = true ↔ RegionFits bytes base size := by
  simp [inRange, RegionFits]

theorem overlap_eq_false {a1 s1 a2 s2 : Nat} : overlap a1 s1 a2 s2 = false ↔ RegionsApart a1 s1 a2 s2 := by
  rw [← Bool.not_eq_true]
  simp only [overlap, RegionsApart, Bool.and_eq_true, decide_eq_true_eq]
  omega

/-! ## The engine step of a buffer command -/

section
variable {α : Type} {srcs : List Operand} {dst : Operand} {compute : Memory → Option α}
  {content : α → Option CmdError} {required : α → Nat} {out : α → List Byte} {s t : State}

/-- Everything a buffer command's step can answer with a next state: an error completion, or the output written. -/
theorem runCommand_next (h : runCommand srcs dst compute content required out s = .next t) :
    (∃ e, t = s.completeError e ∧
      (operandError s.bufBytes srcs dst = some e ∨ (∃ a, compute s.buf = some a ∧ content a = some e) ∨
        ∃ n, e = capacityError n)) ∨
    (∃ a, operandError s.bufBytes srcs dst = none ∧ compute s.buf = some a ∧ content a = none ∧
      required a ≤ dst.count ∧
      t = s.completeOk (BitVec.ofNat 32 (required a)) (s.buf.writeBytes dst.base (out a))) := by
  unfold runCommand at h
  split at h
  · rename_i e he
    exact .inl ⟨e, by simpa using h.symm, .inl he⟩
  · rename_i he
    split at h
    · cases h
    · rename_i a ha
      split at h
      · rename_i e hc
        exact .inl ⟨e, by simpa using h.symm, .inr (.inl ⟨a, ha, hc⟩)⟩
      · rename_i hc
        split at h
        · exact .inl ⟨_, by simpa using h.symm, .inr (.inr ⟨_, rfl⟩)⟩
        · exact .inr ⟨a, he, ha, hc, by omega, by simpa using h.symm⟩

/-- A buffer command's step stops only on an unwritten source byte. -/
theorem runCommand_fault {r : Fault} (h : runCommand srcs dst compute content required out s = .fault r) :
    r = .uninitRead ∧ operandError s.bufBytes srcs dst = none ∧ compute s.buf = none := by
  unfold runCommand at h
  split at h
  · cases h
  · rename_i he
    split at h
    · rename_i hc
      exact ⟨by simpa using h.symm, he, hc⟩
    · split at h
      · cases h
      · split at h <;> cases h

theorem runCommand_ne_refused {r : Refusal} : runCommand srcs dst compute content required out s ≠ .refused r := by
  unfold runCommand
  repeat' split
  all_goals exact nofun

theorem runCommand_operandError {e : CmdError} (h : operandError s.bufBytes srcs dst = some e) :
    runCommand srcs dst compute content required out s = .next (s.completeError e) := by
  simp [runCommand, h]

theorem runCommand_unwritten (h : operandError s.bufBytes srcs dst = none) (hc : compute s.buf = none) :
    runCommand srcs dst compute content required out s = .fault .uninitRead := by
  simp [runCommand, h, hc]

theorem runCommand_contentError {a : α} {e : CmdError} (h : operandError s.bufBytes srcs dst = none)
    (hc : compute s.buf = some a) (he : content a = some e) :
    runCommand srcs dst compute content required out s = .next (s.completeError e) := by
  simp [runCommand, h, hc, he]

theorem runCommand_overCapacity {a : α} (h : operandError s.bufBytes srcs dst = none) (hc : compute s.buf = some a)
    (he : content a = none) (hn : dst.count < required a) :
    runCommand srcs dst compute content required out s = .next (s.completeError (capacityError (required a))) := by
  simp [runCommand, h, hc, he, hn]

theorem runCommand_ok {a : α} (h : operandError s.bufBytes srcs dst = none) (hc : compute s.buf = some a)
    (he : content a = none) (hn : required a ≤ dst.count) :
    runCommand srcs dst compute content required out s =
      .next (s.completeOk (BitVec.ofNat 32 (required a)) (s.buf.writeBytes dst.base (out a))) := by
  simp [runCommand, h, hc, he, Nat.not_lt.mpr hn]

end

/-! ## Element reads -/

theorem readArray_eq_some {α : Type} {read : Nat → Option α} {e base n : Nat} {xs : List α} :
    readArray read e base n = some xs ↔ xs.length = n ∧ ∀ i, ∀ h : i < xs.length, read (base + e * i) = some xs[i] := by
  induction n generalizing base xs with
  | zero => cases xs <;> simp [readArray]
  | succ n ih =>
    rw [readArray]
    constructor
    · intro h
      split at h
      · rename_i x ys hx hys
        obtain ⟨hl, hr⟩ := ih.mp hys
        simp only [Option.some.injEq] at h
        subst h
        refine ⟨by simp [hl], fun i hi => ?_⟩
        cases i with
        | zero => simpa using hx
        | succ i =>
          have := hr i (by simpa using hi)
          rw [show base + e * (i + 1) = base + e + e * i by ring]
          simpa using this
      · cases h
    · rintro ⟨hl, hr⟩
      cases xs with
      | nil => cases hl
      | cons x xs =>
        have h0 := hr 0 (by simp)
        have ht : readArray read e (base + e) n = some xs := ih.mpr ⟨by simpa using hl, fun i hi => by
          have := hr (i + 1) (by simpa using hi)
          rw [show base + e * (i + 1) = base + e + e * i by ring] at this
          simpa using this⟩
        simp only [Nat.mul_zero, Nat.add_zero, List.getElem_cons_zero] at h0
        simp [h0, ht]

/-- An array read fails exactly when some element's read does. -/
theorem readArray_eq_none {α : Type} {read : Nat → Option α} {e base n : Nat} :
    readArray read e base n = none ↔ ∃ i, i < n ∧ read (base + e * i) = none := by
  induction n generalizing base with
  | zero => simp [readArray]
  | succ n ih =>
    rw [readArray]
    constructor
    · intro h
      rcases hx : read base with _ | x
      · exact ⟨0, by omega, by simpa using hx⟩
      · rcases hxs : readArray read e (base + e) n with _ | xs
        · obtain ⟨i, hi, hr⟩ := ih.mp hxs
          exact ⟨i + 1, by omega, by rw [show base + e * (i + 1) = base + e + e * i by ring]; exact hr⟩
        · simp [hx, hxs] at h
    · rintro ⟨i, hi, hr⟩
      cases i with
      | zero => simp only [Nat.mul_zero, Nat.add_zero] at hr; simp [hr]
      | succ i =>
        rw [show base + e * (i + 1) = base + e + e * i by ring] at hr
        simp [ih.mpr ⟨i, by omega, hr⟩]

theorem readArray_congr {α : Type} {read read' : Nat → Option α} {e base n : Nat}
    (h : ∀ i, i < n → read' (base + e * i) = read (base + e * i)) :
    readArray read' e base n = readArray read e base n := by
  induction n generalizing base with
  | zero => rfl
  | succ n ih =>
    have h0 := h 0 (by omega)
    simp only [Nat.mul_zero, Nat.add_zero] at h0
    rw [readArray, readArray, h0, ih fun i hi => by
      have := h (i + 1) (by omega)
      rwa [show base + e * (i + 1) = base + e + e * i by ring] at this]

theorem readPixel_eq_some {m : Memory} {a : Nat} {v : Pixel} : readPixel m a = some v ↔ memRead m a 2 = some v.toNat := by
  unfold readPixel
  split
  · rename_i w hw
    have := memRead_lt hw
    rw [hw]
    simp only [Option.some.injEq]
    constructor
    · rintro rfl
      simp; omega
    · rintro rfl
      simp
  · simp [*]

/-- A PixelSequence held by BUF is what an array of pixel elements reads as. -/
theorem readPixels_eq_some {m : Memory} {base n : Nat} {seq : List Pixel} :
    readArray (readPixel m) 2 base n = some seq ↔ seq.length = n ∧ HoldsPixels m base seq := by
  simp only [readArray_eq_some, readPixel_eq_some, HoldsPixels]

theorem readRgb_eq_some {m : Memory} {a : Nat} {c : Byte × Byte × Byte} :
    readRgb m a = some c ↔ memRead m a 1 = some c.1.toNat ∧ memRead m (a + 1) 1 = some c.2.1.toNat ∧
      memRead m (a + 2) 1 = some c.2.2.toNat := by
  obtain ⟨r, g, b⟩ := c
  unfold readRgb
  split
  · rename_i x y z hx hy hz
    have h1 := memRead_lt hx
    have h2 := memRead_lt hy
    have h3 := memRead_lt hz
    simp only [hx, hy, hz, Option.some.injEq, Prod.mk.injEq, ← BitVec.toNat_inj, BitVec.toNat_ofNat]
    omega
  · rename_i hn
    simp only [reduceCtorEq, false_iff]
    rintro ⟨hx, hy, hz⟩
    exact hn _ _ _ hx hy hz

/-- An RGB888 array held by BUF is what an array of RGB888 elements reads as. -/
theorem readRgbs_eq_some {m : Memory} {base n : Nat} {px : List (Byte × Byte × Byte)} :
    readArray (readRgb m) 3 base n = some px ↔ px.length = n ∧ HoldsRgb m base px := by
  simp only [readArray_eq_some, readRgb_eq_some, HoldsRgb]

theorem readRun_eq_some {m : Memory} {a : Nat} {r : Run} :
    readRun m a = some r ↔ memRead m a 2 = some r.value.toNat ∧ memRead m (a + 4) 4 = some r.count := by
  obtain ⟨v, c⟩ := r
  unfold readRun
  split
  · rename_i x y hx hy
    have h1 := memRead_lt hx
    simp only [hx, hy, Option.some.injEq, Run.mk.injEq, ← BitVec.toNat_inj, BitVec.toNat_ofNat]
    omega
  · rename_i hn
    simp only [reduceCtorEq, false_iff]
    rintro ⟨hx, hy⟩
    exact hn _ _ hx hy

/-- Run records held by BUF are what an array of run records reads as. -/
theorem readRuns_eq_some {m : Memory} {base n : Nat} {runs : List Run} :
    readArray (readRun m) 8 base n = some runs ↔ runs.length = n ∧ HoldsRuns m base runs := by
  simp only [readArray_eq_some, readRun_eq_some, HoldsRuns]

/-! ## Element writes -/

theorem flatMap_length {α : Type} {f : α → List Byte} {e : Nat} (hf : ∀ x, (f x).length = e) (l : List α) :
    (l.flatMap f).length = e * l.length := by
  induction l with
  | nil => rfl
  | cons x l ih => simp [hf, ih]; ring

/-- Element k of a packed output stands at k times the element size. -/
theorem flatMap_split {α : Type} {f : α → List Byte} {e : Nat} (hf : ∀ x, (f x).length = e) (l : List α) (k : Nat)
    (hk : k < l.length) : ∃ pre post, l.flatMap f = pre ++ f l[k] ++ post ∧ pre.length = e * k := by
  induction l generalizing k with
  | nil => cases hk
  | cons x l ih =>
    cases k with
    | zero => exact ⟨[], l.flatMap f, by simp, by simp⟩
    | succ k =>
      obtain ⟨pre, post, h, hl⟩ := ih k (by simpa using hk)
      exact ⟨f x ++ pre, post, by simp [h], by simp [hf, hl]; ring⟩

/-- A field of element k of a packed output reads back as its value. -/
theorem memRead_writeBytes_field {α : Type} {f : α → List Byte} {e : Nat} (hf : ∀ x, (f x).length = e) (m : Memory)
    (a : Nat) (l : List α) (k : Nat) (hk : k < l.length) (before after : List Byte) (n v : Nat)
    (h : f l[k] = before ++ leBytes n v ++ after) :
    memRead (m.writeBytes a (l.flatMap f)) (a + e * k + before.length) n = some (v % 256 ^ n) := by
  obtain ⟨pre, post, hs, hl⟩ := flatMap_split hf l k hk
  have := memRead_writeBytes_middle m a n v (pre ++ before) (after ++ post)
  rw [hs, h]
  simpa [hl, Nat.add_assoc] using this

@[simp] theorem pixelBytes_length (v : Pixel) : (pixelBytes v).length = 2 := by simp [pixelBytes]

@[simp] theorem runBytes_length (r : Run) : (runBytes r).length = 8 := by simp [runBytes]

@[simp] theorem diffBytes_length (d : DiffRecord) : (diffBytes d).length = 12 := by simp [diffBytes]

/-- A pixel array written is held. -/
theorem holdsPixels_write (m : Memory) (a : Nat) (seq : List Pixel) :
    HoldsPixels (m.writeBytes a (seq.flatMap pixelBytes)) a seq := by
  intro i hi
  have hv := seq[i].isLt
  have := memRead_writeBytes_field pixelBytes_length m a seq i hi [] [] 2 seq[i].toNat (by simp [pixelBytes])
  rwa [Nat.mod_eq_of_lt (by simpa using hv), List.length_nil, Nat.add_zero] at this

/-- Run records written are held, with RSVD 0, when their counts fit the COUNT field. -/
theorem holdsRuns_write (m : Memory) (a : Nat) (runs : List Run) (hc : ∀ r ∈ runs, r.count < 2 ^ 32) :
    HoldsRuns (m.writeBytes a (runs.flatMap runBytes)) a runs ∧
      RsvdZero (m.writeBytes a (runs.flatMap runBytes)) a runs.length := by
  refine ⟨fun k hk => ⟨?_, ?_⟩, fun k hk => ?_⟩
  · have hv := runs[k].value.isLt
    have := memRead_writeBytes_field runBytes_length m a runs k hk [] (leBytes 2 0 ++ leBytes 4 runs[k].count) 2
      runs[k].value.toNat (by simp [runBytes])
    rwa [Nat.mod_eq_of_lt (by simpa using hv), List.length_nil, Nat.add_zero] at this
  · have hv := hc _ (List.getElem_mem hk)
    have := memRead_writeBytes_field runBytes_length m a runs k hk (leBytes 2 runs[k].value.toNat ++ leBytes 2 0) [] 4
      runs[k].count (by simp [runBytes])
    rw [Nat.mod_eq_of_lt (by simpa using hv)] at this
    simpa using this
  · have := memRead_writeBytes_field runBytes_length m a runs k hk (leBytes 2 runs[k].value.toNat)
      (leBytes 4 runs[k].count) 2 0 (by simp [runBytes])
    simpa using this

/-- Diff records written are held, when their indices fit the INDEX field. -/
theorem holdsDiffs_write (m : Memory) (a : Nat) (ds : List DiffRecord) (hi : ∀ d ∈ ds, d.index < 2 ^ 32) :
    HoldsDiffs (m.writeBytes a (ds.flatMap diffBytes)) a ds := by
  intro k hk
  have h1 := hi _ (List.getElem_mem hk)
  have h2 := ds[k].old.isLt
  have h3 := ds[k].new.isLt
  have h4 := (BitVec.ofInt 32 ds[k].delta).isLt
  have f := memRead_writeBytes_field diffBytes_length m a ds k hk
  have e1 := f [] (leBytes 2 ds[k].old.toNat ++ leBytes 2 ds[k].new.toNat ++ leBytes 4 (BitVec.ofInt 32 ds[k].delta).toNat)
    4 ds[k].index (by simp [diffBytes])
  have e2 := f (leBytes 4 ds[k].index) (leBytes 2 ds[k].new.toNat ++ leBytes 4 (BitVec.ofInt 32 ds[k].delta).toNat)
    2 ds[k].old.toNat (by simp [diffBytes])
  have e3 := f (leBytes 4 ds[k].index ++ leBytes 2 ds[k].old.toNat) (leBytes 4 (BitVec.ofInt 32 ds[k].delta).toNat)
    2 ds[k].new.toNat (by simp [diffBytes])
  have e4 := f (leBytes 4 ds[k].index ++ leBytes 2 ds[k].old.toNat ++ leBytes 2 ds[k].new.toNat) []
    4 (BitVec.ofInt 32 ds[k].delta).toNat (by simp [diffBytes])
  rw [Nat.mod_eq_of_lt (by simpa using h1)] at e1
  rw [Nat.mod_eq_of_lt (by simpa using h2)] at e2
  rw [Nat.mod_eq_of_lt (by simpa using h3)] at e3
  rw [Nat.mod_eq_of_lt (by simpa using h4)] at e4
  simp only [List.length_append, leBytes_length, List.length_nil, Nat.add_zero] at e1 e2 e3 e4
  exact ⟨e1, e2, e3, e4⟩

end Sys2Proof.Machine
end

