-- ==== Sys2Proof/Laws/PerInstr.lean ====
section
/-! SUPPORT. Statements about every command as syntax, one lemma per constructor. -/

namespace Sys2Proof.Laws.EncodeOpcode

/-- The opcode of each row (30_encoding.md R94). -/
def opcode : Instr → BitVec 8
  | .qpix _ _ _ => 0x01#8
  | .qbuf => 0x02#8
  | .encode => 0x03#8
  | .decode => 0x04#8
  | .diff => 0x05#8

/-- A command's word carries its row's opcode in bits 7:0 (R91). -/
def Statement (i : Instr) : Prop := opcodeField (Sys2Proof.encode i) = opcode i

theorem qpix (r g b : Byte) : Statement (.qpix r g b) := opcodeField_encode_qpix r g b

theorem qbuf : Statement .qbuf := rfl

theorem encode : Statement .encode := rfl

theorem decode : Statement .decode := rfl

theorem diff : Statement .diff := rfl

end Sys2Proof.Laws.EncodeOpcode
end

