-- ==== Sys2Proof/Laws/Step.lean ====
section
/-! SUPPORT. What a command's meaning, the engine's move, the host's move and one step can do, said once. -/

namespace Sys2Proof.Machine

/-! ## The guard of the engine step -/

theorem withPending_enabled {s : State} {p : Pending} (f : Pending → Result) (h : s.Enabled p) :
    s.withPending f = f p := by
  simp [State.withPending, h.1, h.2]

theorem withPending_next {s t : State} {f : Pending → Result} (h : s.withPending f = .next t) :
    ∃ p, s.Enabled p ∧ f p = .next t := by
  unfold State.withPending at h
  split at h
  · cases h
  · rename_i hf
    split at h
    · rename_i p hp
      exact ⟨p, ⟨hf, hp⟩, h⟩
    · cases h

theorem withPending_fault {s : State} {f : Pending → Result} {r : Fault} (h : s.withPending f = .fault r) :
    s.fault = some r ∨ ∃ p, s.Enabled p ∧ f p = .fault r := by
  unfold State.withPending at h
  split at h
  · rename_i r' hf
    exact .inl (by rw [hf]; simpa using h)
  · rename_i hf
    split at h
    · rename_i p hp
      exact .inr ⟨p, ⟨hf, hp⟩, h⟩
    · cases h

/-! ## Completions -/

/-- A successful completion, with BUF as it was or with bytes of the destination's capacity region written. -/
structure WritesOutput (i : Instr) (s t : State) (p : Pending) : Prop where
  ok : ∃ r m, t = s.completeOk r m
  buf : t.buf = s.buf ∨ ∃ bs n, t.buf = s.buf.writeBytes p.op.dst.toNat bs ∧ bs.length = outputSize i * n ∧
    t.result = BitVec.ofNat 32 n ∧ n ≤ p.op.dstCap.toNat ∧
    RegionFits s.bufBytes p.op.dst.toNat (p.op.dstCap.toNat * outputSize i)

theorem code_legal (n : ErrorName) : LegalErr n.code := by cases n <;> decide

theorem code_ne_zero (n : ErrorName) : n.code ≠ 0x0#4 := by cases n <;> decide

/-- The outcome registers of an error completion fit its code, when the detail is one R136 gives. -/
abbrev CmdError.Fits (e : CmdError) : Prop := OutcomeFits e.name.code 0#32 e.info

theorem operandId_fits {name : ErrorName} {srcs : List Operand} {o : OperandRegs} {el : Elem}
    (hn : name = .align ∨ name = .range) (hs : ∀ x ∈ srcs, x.id = 1 ∨ x.id = 2) {x : Operand}
    (hx : x ∈ srcs ++ [o.operandDst el]) : CmdError.Fits ⟨name, BitVec.ofNat 32 x.id⟩ := by
  have hid : x.id = 1 ∨ x.id = 2 ∨ x.id = 3 := by
    rcases List.mem_append.mp hx with hx | hx
    · rcases hs x hx with h | h <;> simp [h]
    · obtain rfl : x = o.operandDst el := by simpa using hx
      exact .inr (.inr rfl)
  rcases hn with rfl | rfl <;> rcases hid with h | h | h <;> rw [h] <;> decide

theorem operandError_fits {bytes : Nat} {srcs : List Operand} {o : OperandRegs} {el : Elem} {e : CmdError}
    (hs : ∀ x ∈ srcs, x.id = 1 ∨ x.id = 2) (h : operandError bytes srcs (o.operandDst el) = some e) : e.Fits := by
  rcases operandError_eq_some h with ⟨x, hx, rfl | rfl⟩ | ⟨x, hx, rfl⟩
  · exact operandId_fits (.inl rfl) hs hx
  · exact operandId_fits (.inr rfl) hs hx
  · rcases hs x hx with h | h <;> rw [h] <;> decide

theorem capacityError_fits (n : Nat) : (capacityError n).Fits := by
  simp [CmdError.Fits, OutcomeFits, capacityError, ErrorName.code]

theorem invalidRunError_fits {runs : List Run} {e : CmdError} (h : invalidRunError runs = some e) : e.Fits := by
  unfold invalidRunError at h
  split at h
  · cases h
    simp [CmdError.Fits, OutcomeFits, ErrorName.code]
  · cases h

/-- A buffer command's step with the operands of R125: an error whose detail fits, or its output written. -/
theorem runCommand_outcome {α : Type} {i : Instr} {s t : State} {p : Pending} {srcs : List Operand} {el : Elem}
    {compute : Memory → Option α} {content : α → Option CmdError} {required : α → Nat} {out : α → List Byte}
    (hsrc : ∀ x ∈ srcs, x.id = 1 ∨ x.id = 2) (hel : el.size = outputSize i)
    (hcontent : ∀ a e, content a = some e → e.Fits) (hout : ∀ a, (out a).length = outputSize i * required a)
    (h : runCommand srcs (p.op.operandDst el) compute content required out s = .next t) :
    (∃ e : CmdError, e.Fits ∧ t = s.completeError e) ∨ WritesOutput i s t p := by
  rcases runCommand_next h with ⟨e, rfl, he⟩ | ⟨a, hop, -, -, hcap, rfl⟩
  · refine .inl ⟨e, ?_, rfl⟩
    rcases he with he | ⟨a, -, he⟩ | ⟨n, rfl⟩
    · exact operandError_fits hsrc he
    · exact hcontent a e he
    · exact capacityError_fits n
  · have hr := (operandError_eq_none.mp hop).2.1 (p.op.operandDst el) (by simp)
    refine .inr ⟨⟨_, _, rfl⟩, .inr ⟨out a, required a, rfl, hout a, rfl, hcap, ?_⟩⟩
    have := inRange_iff.mp hr
    rwa [← hel]

/-- Everything a command can answer with a next state: an error completion (BUF unwritten, with a fitting detail), or a
success that writes its output elements. -/
theorem exec_next {i : Instr} {s t : State} (h : exec i s = .next t) :
    ∃ p, s.Enabled p ∧ ((∃ e : CmdError, e.Fits ∧ t = s.completeError e) ∨ WritesOutput i s t p) := by
  cases i with
  | qpix r g b =>
    obtain ⟨p, hp, h⟩ := withPending_next h
    exact ⟨p, hp, .inr ⟨⟨_, _, by simpa using h.symm⟩, .inl (by simp at h; rw [← h]; rfl)⟩⟩
  | qbuf =>
    obtain ⟨p, hp, h⟩ := withPending_next h
    exact ⟨p, hp, runCommand_outcome (by simp [OperandRegs.operandA]) rfl nofun
      (fun a => by rw [flatMap_length pixelBytes_length]; rfl) h⟩
  | encode =>
    obtain ⟨p, hp, h⟩ := withPending_next h
    exact ⟨p, hp, runCommand_outcome (by simp [OperandRegs.operandA]) rfl nofun
      (fun a => by rw [flatMap_length runBytes_length]; rfl) h⟩
  | decode =>
    obtain ⟨p, hp, h⟩ := withPending_next h
    refine ⟨p, hp, runCommand_outcome (by simp [OperandRegs.operandA]) rfl (fun a e => invalidRunError_fits)
      (fun a => ?_) h⟩
    rw [flatMap_length pixelBytes_length]
    have : (expandRuns a).length = totalCount a := by
      induction a with
      | nil => rfl
      | cons r rs ih => simp [expandRuns, totalCount] at ih ⊢; exact ih
    rw [this]; rfl
  | diff =>
    obtain ⟨p, hp, h⟩ := withPending_next h
    split at h
    · exact ⟨p, hp, runCommand_outcome (by simp [OperandRegs.operandA, OperandRegs.operandB]) rfl nofun
        (fun a => by rw [flatMap_length diffBytes_length]; rfl) h⟩
    · exact ⟨p, hp, .inl ⟨⟨.lengthMismatch, 0#32⟩, by decide, by simpa using h.symm⟩⟩

/-- A command stops only in a faulted state or on an unwritten source byte (R135). -/
theorem exec_fault {i : Instr} {s : State} {r : Fault} (hf : s.fault = none) (h : exec i s = .fault r) :
    r = .uninitRead := by
  have lift {f : Pending → Result} (h : s.withPending f = .fault r) : ∃ p, s.Enabled p ∧ f p = .fault r := by
    rcases withPending_fault h with h' | h'
    · rw [hf] at h'; cases h'
    · exact h'
  cases i with
  | qpix r g b => obtain ⟨_, _, h⟩ := lift h; cases h
  | qbuf => obtain ⟨_, _, h⟩ := lift h; exact (runCommand_fault h).1
  | encode => obtain ⟨_, _, h⟩ := lift h; exact (runCommand_fault h).1
  | decode => obtain ⟨_, _, h⟩ := lift h; exact (runCommand_fault h).1
  | diff =>
    obtain ⟨_, _, h⟩ := lift h
    split at h
    · exact (runCommand_fault h).1
    · cases h

/-- With a command pending, no meaning refuses. -/
theorem exec_pending_ne_refused {i : Instr} {s : State} {p : Pending} {r : Refusal} (hp : s.pending = some p) :
    exec i s ≠ .refused r := by
  have lift {f : Pending → Result} (hf : f p ≠ .refused r) : s.withPending f ≠ .refused r := by
    unfold State.withPending
    split
    · exact nofun
    · simpa [hp] using hf
  cases i with
  | qpix r g b => exact lift nofun
  | qbuf => exact lift runCommand_ne_refused
  | encode => exact lift runCommand_ne_refused
  | decode => exact lift runCommand_ne_refused
  | diff =>
    refine lift ?_
    split
    · exact runCommand_ne_refused
    · exact nofun

/-! ## The host's accesses -/

/-- What a host access is allowed as: an aligned 32-bit register access, or an aligned 1-, 2- or 4-byte BUF access
while no command is pending. -/
theorem access_eq_ok {s : State} {p : Place} {w : Nat} {slot : Slot} (h : s.access p w = .ok slot) :
    (∃ off, slot = .reg off ∧ w = 4 ∧ off % 4 = 0) ∨
      ∃ a, slot = .buf a ∧ s.busy = false ∧ (w = 1 ∨ w = 2 ∨ w = 4) ∧ a % w = 0 ∧ a < s.bufBytes := by
  unfold State.access at h
  split at h
  · cases h
  · rename_i sl hloc
    split at h
    · cases h
    · rename_i hacc
      obtain rfl : sl = slot := by simpa using h
      cases sl with
      | reg off =>
        simp only [accessFault] at hacc
        split at hacc
        · rename_i hw
          exact .inl ⟨off, rfl, hw⟩
        · cases hacc
      | buf a =>
        simp only [accessFault] at hacc
        split at hacc
        · cases hacc
        · rename_i hb
          split at hacc
          · rename_i hw
            split at hacc
            · rename_i ha
              refine .inr ⟨a, rfl, by simpa using hb, hw, ha, ?_⟩
              unfold Params.locate at hloc
              split at hloc
              · split at hloc <;> simp at hloc
              · split at hloc
                · simp at hloc
                  subst hloc
                  assumption
                · cases hloc
              · split at hloc
                · cases hloc
                · split at hloc
                  · simp at hloc
                    subst hloc
                    simp only [State.bufBytes]
                    omega
                  · cases hloc
            · cases hacc
          · cases hacc

/-- Every way a host step can answer a next state. -/
theorem performHost_next {h : HostStep} {rest : List HostStep} {s t : State} (ht : performHost h rest s = .next t) :
    (∃ p w v, h = .read p w ∧ s.hostRead p w = .ok v ∧ t = (s.issue rest).logRead v) ∨
    (∃ p w v slot, h = .write p w v ∧ (s.issue rest).access p w = .ok slot ∧
      t = (s.issue rest).writeSlot w v slot) ∨
    (h = .wait ∧ t = (s.issue (if s.busy then .wait :: rest else rest)).logRead s.statusWord) ∨
    (h = .reset ∧ t = (s.issue rest).afterReset) := by
  cases h with
  | read p w =>
    simp only [performHost] at ht
    split at ht
    · rename_i v hv
      exact .inl ⟨p, w, v, rfl, hv, by simpa using ht.symm⟩
    · cases ht
  | write p w v =>
    simp only [performHost, State.hostWrite] at ht
    split at ht
    · rename_i u hu
      split at hu
      · cases hu
      · rename_i slot hs
        refine .inr (.inl ⟨p, w, v, slot, rfl, hs, ?_⟩)
        simp at hu ht
        rw [hu, ht]
    · cases ht
  | wait => exact .inr (.inr (.inl ⟨rfl, by simpa [performHost] using ht.symm⟩))
  | reset => exact .inr (.inr (.inr ⟨rfl, by simpa [performHost] using ht.symm⟩))

theorem performHost_ne_refused {h : HostStep} {rest : List HostStep} {s : State} {r : Refusal} :
    performHost h rest s ≠ .refused r := by
  cases h with
  | read p w => simp only [performHost]; split <;> exact nofun
  | write p w v => simp only [performHost]; split <;> exact nofun
  | wait => exact nofun
  | reset => exact nofun

/-! ## One step -/

theorem engineMoves_pending {s : State} (h : engineMoves s = true) : ∃ p, s.pending = some p := by
  simp only [engineMoves, State.busy, Bool.and_eq_true, Option.isSome_iff_exists] at h
  exact h.1

/-- The engine's move on a pending word. -/
theorem engineStep_pending {s : State} {p : Pending} (h : s.Enabled p) :
    engineStep s = match decode p.cmd with
      | .ok i => exec i s
      | .error _ => .next (s.completeError ⟨.illegalCmd, 0#32⟩) := by
  rw [engineStep, withPending_enabled _ h]
  cases decode p.cmd with
  | ok i => rfl
  | error e => exact withPending_enabled _ h

/-- Everything a step can answer with a next state: a command's meaning, an illegal word's completion, the host's next
step, or nothing when there is nothing to do. -/
theorem step_next {s t : State} (h : step s = .next t) :
    s.fault = none ∧
      ((engineMoves s = true ∧ ∃ p, s.pending = some p ∧
          ((∃ i, decode p.cmd = .ok i ∧ exec i s = .next t) ∨
            ((∃ e, decode p.cmd = .error e) ∧ t = s.completeError ⟨.illegalCmd, 0#32⟩))) ∨
        (engineMoves s = false ∧ ((s.env.script = [] ∧ t = s) ∨
          ∃ a rest, s.env.script = a :: rest ∧ performHost a rest s = .next t))) := by
  unfold step at h
  split at h
  · cases h
  · rename_i hf
    refine ⟨hf, ?_⟩
    split at h
    · rename_i hm
      obtain ⟨p, hp⟩ := engineMoves_pending hm
      rw [engineStep_pending ⟨hf, hp⟩] at h
      refine .inl ⟨hm, p, hp, ?_⟩
      split at h
      · rename_i i hi
        exact .inl ⟨i, hi, h⟩
      · rename_i e he
        exact .inr ⟨⟨e, he⟩, by simpa using h.symm⟩
    · rename_i hm
      refine .inr ⟨by simpa using hm, ?_⟩
      unfold hostStep at h
      split at h
      · rename_i hs
        exact .inl ⟨hs, by simpa using h.symm⟩
      · rename_i a rest hs
        exact .inr ⟨a, rest, hs, h⟩

/-- A step on a word stored by `withFetchWord` is the engine step on that word. -/
theorem step_withFetchWord {s : State} (nbits w : Nat) (hf : s.fault = none) :
    step (s.withFetchWord nbits w) = engineStep (s.withFetchWord nbits w) := by
  have hm : engineMoves (s.withFetchWord nbits w) = true := by
    simp [engineMoves, State.busy, State.withFetchWord]
  have hf' : (s.withFetchWord nbits w).fault = none := hf
  simp [step, hm, hf']

end Sys2Proof.Machine
end

