-- ==== Sys2Proof/Tests/Slice0.lean ====
section
/-! SUPPORT. The model's own tests. Expected values come from the spec's tables and from the vectors of
spec/95_test_vectors.md, named in each docstring. Witnesses for the statements' hypotheses stand in the second half. -/

namespace Sys2Proof.Tests

open Sys2Proof Sys2Proof.Machine

/-! ## Helpers -/

/-- Operand registers in the order of the notation's SETUP (30_encoding.md R107). -/
def setupOps (a la b lb d cap : Word) : OperandRegs :=
  { srcA := a, srcB := b, dst := d, lenA := la, lenB := lb, dstCap := cap }

/-- The reset state with BUF `m`, the operand registers `o` and the word `w` accepted. -/
def pend (m : Memory) (w : Word) (o : OperandRegs) : State :=
  { State.reset with buf := m, ops := o, pending := some { cmd := w, op := o } }

/-- The reset state with the host about to take `script`, and the delays `timing` fixed. -/
def host (script : List HostStep) (timing : List Nat) : State :=
  { State.reset with env := { script := script, delay := 0, timing := timing, draws := 0, readLog := [] } }

/-- What a vector's expected columns show: STATUS, RESULT, ERR_INFO. -/
def outcome (s : State) : Word × Word × Word := (s.statusWord, s.result, s.errInfo)

/-- The values the host read in a run, in order. -/
def reads (n : Nat) (s : State) : List Word := (advanceBy n s).env.readLog.reverse

/-! ## WellFormed: ill-formed parameters are refused (00_scope.md R7) -/

theorem test_wf_standard : Params.standard.wf := by decide
theorem test_wf_refuses_bufAw_3 : ¬Params.wf { bufAw := 3, regBase := 0, bufBase := 0x10000 } := by decide
theorem test_wf_refuses_bufAw_32 : ¬Params.wf { bufAw := 32, regBase := 0, bufBase := 0x10000 } := by decide
theorem test_wf_bounds : Params.wf { bufAw := 4, regBase := 0, bufBase := 0x100 } ∧
    Params.wf { bufAw := 31, regBase := 0x80000000, bufBase := 0 } := by decide
theorem test_wf_refuses_bufWindow_inside_registers :
    ¬Params.wf { bufAw := 4, regBase := 0, bufBase := 0xFF } := by decide
theorem test_wf_refuses_registers_inside_bufWindow :
    ¬Params.wf { bufAw := 16, regBase := 0xFFFF, bufBase := 0 } := by decide

/-! ## Decoding: words written out from 30_encoding.md R90, R94 and the vectors' CMD column -/

/-- Q-10: red 0x12 in bits 31:24, green 0x34 in 23:16, blue 0x56 in 15:8, opcode 0x01. -/
theorem test_decode_qpix : decode 0b00010010001101000101011000000001#32 = .ok (.qpix 0x12#8 0x34#8 0x56#8) := rfl
theorem test_decode_qbuf : decode 0b00000000000000000000000000000010#32 = .ok .qbuf := rfl
theorem test_decode_encode : decode 0b00000000000000000000000000000011#32 = .ok .encode := rfl
theorem test_decode_decode : decode 0b00000000000000000000000000000100#32 = .ok .decode := rfl
theorem test_decode_diff : decode 0b00000000000000000000000000000101#32 = .ok .diff := rfl

/-- I-1 to I-3: unused opcodes. -/
theorem test_decode_unused : decode 0x00000000#32 = .error .unusedOpcode ∧
    decode 0x00000006#32 = .error .unusedOpcode ∧ decode 0x000000FF#32 = .error .unusedOpcode := ⟨rfl, rfl, rfl⟩

/-- I-4 to I-6: upper bits of a command without immediates. -/
theorem test_decode_upper : decode 0x00000103#32 = .error .nonzeroUpperBits ∧
    decode 0x80000005#32 = .error .nonzeroUpperBits ∧ decode 0x00000102#32 = .error .nonzeroUpperBits :=
  ⟨rfl, rfl, rfl⟩

theorem test_decodeTableWord : decodeTableWord 32 0x00FF0001 = some (.qpix 0#8 0xFF#8 0#8) ∧
    decodeTableWord 32 0x5 = some .diff ∧ decodeTableWord 32 0x6 = none := ⟨rfl, rfl, rfl⟩

/-- After reset, a step on a stored word runs it (Q-1). -/
theorem test_withFetchWord :
    outcome (advance (State.reset.withFetchWord 32 0xFF000001)) = (0x2#32, 0xF800#32, 0#32) := by decide

/-! ## One step of each command -/

/-- Q-16. -/
theorem test_qpix : outcome (advance (pend [] 0xABCDEF01#32 (setupOps 1 5 0xFFFF 9 3 0))) =
    (0x2#32, 0xAE7D#32, 0#32) := by decide

/-- Q-B2. -/
theorem test_qbuf : let s := advance (pend (cellsFrom 0 [0xFF, 0x00, 0x00, 0x00, 0xFF, 0x00]) 0x2#32
      (setupOps 0 2 0 0 0x100 2))
    outcome s = (0x2#32, 2#32, 0#32) ∧
      s.buf = cellsFrom 0 [0xFF, 0x00, 0x00, 0x00, 0xFF, 0x00] ++ cellsFrom 0x100 [0x00, 0xF8, 0xE0, 0x07] := by decide

/-- Q-B7. -/
theorem test_qbuf_overlap : outcome (advance (pend (cellsFrom 0 [0x10, 0x10, 0x10, 0x10, 0x10, 0x10]) 0x2#32
    (setupOps 0 2 0 0 4 2))) = (0x702#32, 0#32, 1#32) := by decide

/-- E-3, the source's scenario 1. -/
theorem test_encode : let m := cellsFrom 0 [0x34, 0x12, 0x34, 0x12, 0x34, 0x12, 0x78, 0x56]
    let s := advance (pend m 0x3#32 (setupOps 0 4 0 0 0x100 4))
    outcome s = (0x2#32, 2#32, 0#32) ∧ s.buf = m ++ cellsFrom 0x100
      [0x34, 0x12, 0x00, 0x00, 0x03, 0x00, 0x00, 0x00, 0x78, 0x56, 0x00, 0x00, 0x01, 0x00, 0x00, 0x00] := by decide

/-- E-11: the capacity region, not the output, is checked. -/
theorem test_encode_range : outcome (advance (pend (cellsFrom 0 [0x01, 0x00]) 0x3#32
    (setupOps 0 1 0 0 0xFFF8 2))) = (0x502#32, 0#32, 3#32) := by decide

/-- D-9: the RSVD bytes are unwritten. -/
theorem test_decode : let m := cellsFrom 0x100 [0xEF, 0xBE] ++ cellsFrom 0x104 [0x02, 0x00, 0x00, 0x00]
    let s := advance (pend m 0x4#32 (setupOps 0x100 1 0 0 0x200 2))
    outcome s = (0x2#32, 2#32, 0#32) ∧ s.buf = m ++ cellsFrom 0x200 [0xEF, 0xBE, 0xEF, 0xBE] := by decide

/-- D-8: the required count saturates, and nothing is expanded. -/
theorem test_decode_saturates : outcome (advance (pend (cellsFrom 0x100 [7, 0, 0, 0, 0xFF, 0xFF, 0xFF, 0xFF,
    7, 0, 0, 0, 0xFF, 0xFF, 0xFF, 0xFF]) 0x4#32 (setupOps 0x100 2 0 0 0x200 4))) =
    (0x802#32, 0#32, 0xFFFFFFFF#32) := by decide

/-- F-2, index 0: the delta is -65535. -/
theorem test_diff : let m := cellsFrom 0 [0xFF, 0xFF] ++ cellsFrom 0x10 [0x00, 0x00]
    let s := advance (pend m 0x5#32 (setupOps 0 1 0x10 1 0x100 1))
    outcome s = (0x2#32, 1#32, 0#32) ∧ s.buf = m ++ cellsFrom 0x100
      [0x00, 0x00, 0x00, 0x00, 0xFF, 0xFF, 0x00, 0x00, 0x01, 0x00, 0xFF, 0xFF] := by decide

/-- F-8: the destination lies over source b only. -/
theorem test_diff_overlap : outcome (advance (pend (cellsFrom 0 [1, 0] ++ cellsFrom 0x10 [2, 0]) 0x5#32
    (setupOps 0 1 0x10 1 0x10 1))) = (0x702#32, 0#32, 2#32) := by decide

/-- I-7: the word is decoded before the lengths are compared. -/
theorem test_illegal : outcome (advance (pend [] 0x105#32 (setupOps 1 2 3 4 5 6))) = (0x402#32, 0#32, 0#32) := by
  decide

/-- E-14. -/
theorem test_unwritten_source : (advance (pend (cellsFrom 0 [1, 0]) 0x3#32 (setupOps 0 2 0 0 0x100 2))).fault =
    some .uninitRead := by decide

/-! ## Host steps -/

/-- S-1 to S-6: ID, CFG, read-only and reserved slots, CTRL. -/
theorem test_registers : reads 11 (host [rd .id, rd .cfg, wr .id 0x12345678#32, rd .id, wr .result 5#32, rd .result,
    .read (.reg 0x34) 4, .write (.reg 0xFC) 4 1#32, .read (.reg 0xFC) 4, wr .ctrl 0xFFFFFFFF#32, rd .ctrl] []) =
    [0x50584301#32, 0x10#32, 0x50584301#32, 0#32, 0#32, 0#32, 1#32] := by decide

/-- The encoding column of programs P1 and P2. -/
theorem test_notation : command (.qpix 255#8 0#8 0#8) = .write (.reg 0x10) 4 0xFF000001#32 ∧
    command .qbuf = .write (.reg 0x10) 4 0x00000002#32 ∧
    setup 0x40 6 0 0 0x80 6 = [.write (.reg 0x14) 4 0x40, .write (.reg 0x20) 4 6, .write (.reg 0x18) 4 0,
      .write (.reg 0x24) 4 0, .write (.reg 0x1C) 4 0x80, .write (.reg 0x28) 4 6] ∧
    ackOutcome = .write (.reg 0x0C) 4 6 := ⟨rfl, rfl, rfl, rfl⟩

/-- S-7 to S-13: acceptance, overrun, the engine step after four host steps, the two W1C bits. -/
theorem test_command_cycle : reads 11 (host [wr .cmd 0x1#32, rd .status, wr .cmd 0xFF000001#32,
    wr .status 0xF01#32, rd .status, rd .status, wr .status 0x2#32, rd .status, wr .status 0x4#32, rd .status]
    [4]) = [0x1#32, 0x5#32, 0x6#32, 0x4#32, 0x0#32] := by decide

/-- H-1: little-endian views. -/
theorem test_little_endian : reads 4 (host [w32 0 0x11223344#32, r8 0, r8 3, r16 2] []) =
    [0x44#32, 0x11#32, 0x1122#32] := by decide

/-- H-3, H-5, H-6, H-8, H-10. -/
theorem test_host_faults :
    (advanceBy 1 (host [w16 1 0#16] [])).fault = some .hostMisaligned ∧
    (advanceBy 1 (host [.read (.reg 0x0C) 1] [])).fault = some .hostWidth ∧
    (advanceBy 1 (host [.read (.reg 0x0E) 4] [])).fault = some .hostWidth ∧
    (advanceBy 2 (host [wr .cmd 1#32, w8 0 0#8] [9])).fault = some .hostRace ∧
    (advanceBy 2 (host [w16 0 0x1234#16, r32 0] [])).fault = some .uninitRead := by decide

/-- P5: a reset cancels a pending command. -/
theorem test_reset_cancels : let s := advanceBy 3 (host [wr .dst 0x100#32, wr .cmd 3#32, .reset] [1])
    s.pending = none ∧ s.ops = OperandRegs.reset ∧ s.statusWord = 0#32 := by decide

/-! ## States and operands that meet the statements' hypotheses -/

/-- Q-B2. -/
def qbufOps : OperandRegs := setupOps 0 2 0 0 0x100 2
def qbufMem : Memory := cellsFrom 0 [0xFF, 0x00, 0x00, 0x00, 0xFF, 0x00]
def qbufState : State := pend qbufMem 0x2#32 qbufOps

/-- E-5. -/
def encodeOps : OperandRegs := setupOps 0 3 0 0 0x100 3
def encodeMem : Memory := cellsFrom 0 [0x0A, 0x00, 0x0B, 0x00, 0x0A, 0x00]
def encodeState : State := pend encodeMem 0x3#32 encodeOps

/-- D-2. -/
def decodeOps : OperandRegs := setupOps 0x100 2 0 0 0x200 4
def decodeMem : Memory :=
  cellsFrom 0x100 [0x34, 0x12, 0x00, 0x00, 0x03, 0x00, 0x00, 0x00, 0x78, 0x56, 0x00, 0x00, 0x01, 0x00, 0x00, 0x00]
def decodeState : State := pend decodeMem 0x4#32 decodeOps

/-- F-1. -/
def diffOps : OperandRegs := setupOps 0 2 0x10 2 0x100 2
def diffMem : Memory := cellsFrom 0 [0x00, 0x00, 0x01, 0x00] ++ cellsFrom 0x10 [0x00, 0x00, 0x02, 0x00]
def diffState : State := pend diffMem 0x5#32 diffOps

/-- The pending command of each of these states. -/
def qbufCmd : Pending := { cmd := 0x2#32, op := qbufOps }
def encodeCmd : Pending := { cmd := 0x3#32, op := encodeOps }
def decodeCmd : Pending := { cmd := 0x4#32, op := decodeOps }
def diffCmd : Pending := { cmd := 0x5#32, op := diffOps }

/-- A pending command, with the host's script and the delay given. -/
def pendWith (w : Word) (script : List HostStep) (delay : Nat) : State :=
  { pend [] w OperandRegs.reset with env := { script := script, delay := delay, timing := [], draws := 0, readLog := [] } }

theorem witness_DecodeAndEncodeAgree : (∃ i : Instr, i.wf = true) ∧ ∃ w i, decode w = .ok i :=
  ⟨⟨.qpix 0xFF#8 0x00#8 0x80#8, rfl⟩, 0xFF008001#32, .qpix 0xFF#8 0x00#8 0x80#8, rfl⟩

theorem witness_StepRunsPendingCommand :
    (∃ (s : State) (p : Pending) (i : Instr), s.Enabled p ∧ s.env.delay = 0 ∧ s.env.script ≠ [] ∧ decode p.cmd = .ok i) ∧
    ∃ (s : State) (p : Pending) (i : Instr), s.Enabled p ∧ s.env.delay ≠ 0 ∧ s.env.script = [] ∧ decode p.cmd = .ok i :=
  ⟨⟨pendWith 3#32 [.reset] 0, ⟨3#32, OperandRegs.reset⟩, .encode, by decide, by decide, by decide, rfl⟩,
    pendWith 3#32 [] 7, ⟨3#32, OperandRegs.reset⟩, .encode, by decide, by decide, by decide, rfl⟩

/-- Every clause at its bounds: opcodes 0x00, 0x06 and 0xFF, and 0x02 and 0x05 with one upper bit set; and the legal
words next to them. -/
theorem witness_IllegalWordCompletes :
    (∀ w ∈ [0x00000000#32, 0x00000006#32, 0x000000FF#32, 0x00000102#32, 0x80000005#32],
      w.toNat % 256 = 0 ∨ 6 ≤ w.toNat % 256 ∨ (2 ≤ w.toNat % 256 ∧ w.toNat % 256 ≤ 5 ∧ w.toNat / 256 ≠ 0)) ∧
    (∀ w ∈ [0x00000101#32, 0x00000002#32, 0x00000005#32],
      ¬(w.toNat % 256 = 0 ∨ 6 ≤ w.toNat % 256 ∨ (2 ≤ w.toNat % 256 ∧ w.toNat % 256 ≤ 5 ∧ w.toNat / 256 ≠ 0))) ∧
    (∃ s : State, s.fault = none ∧ s.pending = none) ∧
    ∃ (s : State) (p : Pending), s.Enabled p ∧ p.cmd = 0x00000006#32 :=
  ⟨by simp, by simp, ⟨State.reset, rfl, rfl⟩, pendWith 6#32 [] 0, ⟨6#32, OperandRegs.reset⟩, by decide, rfl⟩

theorem witness_FaultIsFinal : ∃ (s : State) (r : Fault), s.fault = some r :=
  ⟨State.reset.recordFault .hostRace, .hostRace, rfl⟩

theorem witness_ModelFaultKeepsState : ∃ (s : State) (r : Fault), s.fault = none ∧ step s = .fault r :=
  ⟨host [r8 0] [], .uninitRead, rfl, rfl⟩

theorem witness_IdleKeepsState : ∃ s : State, s.fault = none ∧ s.pending = none ∧ s.env.script = [] :=
  ⟨State.reset, rfl, rfl, rfl⟩

/-- The first and the last reserved offset. -/
theorem witness_ReservedAndReadOnlyOffsets : ∀ off ∈ [0x34, 0xFC], 0x34 ≤ off ∧ off < 0x100 ∧ off % 4 = 0 := by decide

/-- BUF_AW at both ends of its range. -/
theorem witness_IdentityAndConfig : (∃ s : State, s.params.wf ∧ s.params.bufAw = 4) ∧
    ∃ s : State, s.params.wf ∧ s.params.bufAw = 31 :=
  ⟨⟨{ State.reset with params := ⟨4, 0, 0x100⟩ }, by decide, rfl⟩,
    { State.reset with params := ⟨31, 0x80000000, 0⟩ }, by decide, rfl⟩

theorem witness_BusyIsPendingOccupied : (∃ s : State, s.pending = none) ∧ (∃ s t : State, engineStep s = .next t) ∧
    (∃ (s t : State) (rest : List HostStep), performHost .reset rest s = .next t) ∧
    (∃ (s t : State) (p : Place), s.hostWrite p 4 1#32 = .ok t ∧ s.access p 4 ≠ .ok (.reg 0x10)) ∧
    (∃ s t : State, s.hostWrite (.reg 0x10) 4 1#32 = .ok t ∧ s.pending ≠ none) ∧
    (∃ s t : State, performHost (.read (.reg 0x0C) 4) [] s = .next t ∧ s.pending ≠ none) ∧
    (∃ s t u v : State, performHost .wait [] s = .next t ∧ s.pending ≠ none ∧ performHost .wait [] u = .next v ∧
      u.pending = none) ∧
    (∃ s t : State, step s = .next t ∧ t.pending ≠ s.pending ∧ s.env.script = []) ∧
    (∃ s t : State, step s = .next t ∧ t.pending ≠ s.pending ∧ s.env.script = [.reset] ∧ engineMoves s = false) ∧
    ∃ s t : State, step s = .next t ∧ t.pending ≠ s.pending ∧ s.pending = none :=
  ⟨⟨State.reset, rfl⟩, ⟨diffState, _, rfl⟩, ⟨diffState, _, [], rfl⟩, ⟨diffState, _, .reg 0x30, rfl, nofun⟩,
    ⟨diffState, _, rfl, by decide⟩, ⟨diffState, _, rfl, by decide⟩,
    ⟨diffState, _, State.reset, _, rfl, by decide, rfl, rfl⟩, ⟨pendWith 1#32 [] 0, _, rfl, nofun, rfl⟩,
    ⟨pendWith 1#32 [.reset] 1, _, rfl, nofun, rfl, rfl⟩, host [wr .cmd 1#32] [0], _, rfl, nofun, rfl⟩

theorem witness_CommandIsAccepted : ∃ s : State, s.fault = none ∧ s.pending = none := ⟨State.reset, rfl, rfl⟩

theorem witness_CommandWhileBusyIsDropped :
    (∃ s t : State, s.pending ≠ none ∧ engineStep s = .next t) ∧
    ∃ (s : State) (r : Fault), s.pending ≠ none ∧ engineStep s = .fault r :=
  ⟨⟨diffState, _, by decide, rfl⟩, pend [] 0x3#32 encodeOps, .uninitRead, by decide, rfl⟩

theorem witness_OverrunIsSticky :
    (∃ s t : State, step s = .next t ∧ s.cmdovr = false ∧ t.cmdovr = true) ∧
    (∃ s t : State, step s = .next t ∧ s.cmdovr = true ∧ t.cmdovr = false ∧ s.env.script = [wr .status 4#32]) ∧
    (∃ s t : State, step s = .next t ∧ s.cmdovr = true ∧ t.cmdovr = false ∧ s.env.script = [.reset]) ∧
    (∃ (s t : State) (w : Word), s.pending = none ∧ s.hostWrite (.reg 0x10) 4 w = .ok t) ∧
    ∃ s t : State, engineStep s = .next t :=
  ⟨⟨pendWith 1#32 [wr .cmd 1#32] 1, _, rfl, rfl, rfl⟩,
    ⟨{ host [wr .status 4#32] [] with cmdovr := true }, _, rfl, rfl, rfl, rfl⟩,
    ⟨{ host [.reset] [] with cmdovr := true }, _, rfl, rfl, rfl, rfl⟩,
    ⟨State.reset, _, 1#32, rfl, rfl⟩, diffState, _, rfl⟩

theorem witness_OutcomeWrittenOnlyAtCompletion :
    (∃ s t : State, step s = .next t ∧ s.pending = none ∧ (∀ rest, s.env.script ≠ .reset :: rest) ∧
      s.env.script ≠ []) ∧
    ∃ s t : State, step s = .next t ∧ s.pending ≠ none ∧ s.env.delay ≠ 0 ∧ (∀ rest, s.env.script ≠ .reset :: rest) ∧
      s.env.script ≠ [] :=
  ⟨⟨host [wr .cmd 1#32] [0], _, rfl, rfl, nofun, by decide⟩,
    pendWith 1#32 [rd .result] 1, _, rfl, by decide, by decide, nofun, by decide⟩

theorem witness_IrqIsCompletionLevel :
    (∃ (s t : State) (v : Word), v.getLsbD 1 = true ∧ s.hostWrite (.reg 0x0C) 4 v = .ok t ∧ s.irq = true) ∧
    (∃ (s t : State) (w : Word), s.pending = none ∧ s.hostWrite (.reg 0x10) 4 w = .ok t ∧ s.irq = true) ∧
    (∃ (s t : State) (v : Word), v.getLsbD 0 = false ∧ s.hostWrite (.reg 0x08) 4 v = .ok t ∧ s.irq = true) ∧
    (∃ (s t : State) (rest : List HostStep), performHost .reset rest s = .next t ∧ s.irq = true) ∧
    ∃ s t : State, engineStep s = .next t :=
  let hot : State := { State.reset with ie := true, done := true }
  ⟨⟨hot, _, 2#32, rfl, rfl, rfl⟩, ⟨hot, _, 1#32, rfl, rfl, rfl⟩, ⟨hot, _, 0#32, rfl, rfl, rfl⟩,
    ⟨hot, _, [], rfl, rfl⟩, diffState, _, rfl⟩

/-- A write, a read and a wrong access of each kind, idle and while a command is pending. -/
theorem witness_HostStepsAreTakenInOrder :
    (∃ (s t : State), s.fault = none ∧ s.pending = none ∧ s.env.script = [w8 0 7#8] ∧
      (s.issue []).hostWrite (.buf 0) 1 7#32 = .ok t) ∧
    (∃ (s : State) (r : Fault), s.fault = none ∧ s.env.delay ≠ 0 ∧ s.env.script = [w8 0 7#8] ∧
      s.hostWrite (.buf 0) 1 7#32 = .error r) ∧
    (∃ (s : State) (v : Word), s.fault = none ∧ s.env.delay ≠ 0 ∧ s.env.script = [rd .status] ∧
      s.hostRead (.reg 0x0C) 4 = .ok v) ∧
    (∃ s : State, s.fault = none ∧ s.env.delay ≠ 0 ∧ s.env.script = [.reset]) ∧
    (∃ (s : State) (v : Word), s.fault = none ∧ s.pending ≠ none ∧ s.env.delay ≠ 0 ∧ s.env.script = [.wait] ∧
      s.hostRead (.reg 0x0C) 4 = .ok v) ∧
    (∃ (s : State) (v : Word), s.fault = none ∧ s.pending = none ∧ s.env.script = [.wait] ∧
      s.hostRead (.reg 0x0C) 4 = .ok v) ∧
    ∃ (s : State) (r : Fault), s.fault = none ∧ s.pending = none ∧ s.env.script = [r8 0] ∧
      s.hostRead (.buf 0) 1 = .error r :=
  ⟨⟨host [w8 0 7#8] [], _, rfl, rfl, rfl, rfl⟩, ⟨pendWith 1#32 [w8 0 7#8] 1, _, rfl, by decide, rfl, rfl⟩,
    ⟨pendWith 1#32 [rd .status] 1, _, rfl, by decide, rfl, rfl⟩, ⟨pendWith 1#32 [.reset] 1, rfl, by decide, rfl⟩,
    ⟨pendWith 1#32 [.wait] 1, _, rfl, by decide, by decide, rfl, rfl⟩, ⟨host [.wait] [], _, rfl, rfl, rfl, rfl⟩,
    host [r8 0] [], _, rfl, rfl, rfl, rfl⟩

/-- The last word slot; a wrong width, a wrong offset, both. -/
theorem witness_RegisterAccessWidth : ((0xFC : Nat) < 0x100 ∧ (4 = 4 ∧ 0xFC % 4 = 0)) ∧
    (∀ c ∈ [(0xFC, 2), (0xFE, 4), (0xFF, 1)], c.1 < 0x100 ∧ ¬(c.2 = 4 ∧ c.1 % 4 = 0)) := by decide

/-- The last byte, halfword and word of BUF; the misaligned and the wrong-width clause at the last address. -/
theorem witness_BufAccessWhileIdle : let s := { State.reset with buf := cellsFrom 0xFFFC [1, 2, 3, 4] }
    s.pending = none ∧
    (∀ c ∈ [(0xFFFF, 1), (0xFFFE, 2), (0xFFFC, 4)], c.1 < s.bufBytes ∧ (c.2 = 1 ∨ c.2 = 2 ∨ c.2 = 4) ∧
      c.1 % c.2 = 0 ∧ c.1 + c.2 ≤ s.bufBytes ∧ memRead s.buf c.1 c.2 ≠ none) ∧
    (∃ k, k < 4 ∧ s.buf.get (0xFFF8 + k) = none) ∧
    (0xFFFF < s.bufBytes ∧ (2 = 1 ∨ 2 = 2 ∨ 2 = 4) ∧ 0xFFFF % 2 ≠ 0) ∧
    (0xFFFF < s.bufBytes ∧ ¬(3 = 1 ∨ 3 = 2 ∨ 3 = 4) ∧ 0xFFFF % 3 = 0) := by decide

theorem witness_BufAccessWhileBusyRaces : ∃ (s : State) (p : Pending), s.pending = some p ∧ 0xFFFF < s.bufBytes :=
  ⟨diffState, diffCmd, rfl, by decide⟩

theorem witness_MixedWidthViews : ∃ s : State, s.pending = none ∧ 0xFFFC % 4 = 0 ∧ 0xFFFC + 4 ≤ s.bufBytes :=
  ⟨State.reset, by decide⟩

/-- The last address of each window, and the first after each. -/
theorem witness_HostAddressMap : let s := State.reset
    s.params.wf ∧ 0xFF < 0x100 ∧ 0xFFFF < s.bufBytes ∧
    ∀ x ∈ [0x100, 0x20000], ¬(s.params.regBase ≤ x ∧ x < s.params.regBase + 0x100) ∧
      ¬(s.params.bufBase ≤ x ∧ x < s.params.bufBase + s.bufBytes) := by decide

theorem witness_ReadsHaveNoSideEffect :
    (∃ (s t : State) (p : Place) (w : Nat), performHost (.read p w) [] s = .next t) ∧
    (∃ (s t : State) (v : Word), s.hostWrite (.reg 0x14) 4 v = .ok t) ∧
    ∃ (s t : State) (v : Word), s.hostWrite (.buf 0xFFFC) 4 v = .ok t :=
  ⟨⟨diffState, _, .reg 0x0C, 4, rfl⟩, ⟨State.reset, _, 1#32, rfl⟩, State.reset, _, 1#32, rfl⟩

theorem witness_ResetStep : (∃ s : State, s.fault = none ∧ s.params.wf ∧ s.pending = none) ∧
    ∃ s : State, s.fault = none ∧ s.params.wf ∧ s.pending ≠ none :=
  ⟨⟨State.reset, by decide⟩, diffState, by decide⟩

/-- `witness_QpixQuantizes` also covers every clause whose one hypothesis is an enabled engine step. -/
theorem witness_QpixQuantizes : ∃ (s : State) (p : Pending), s.Enabled p ∧
    p.cmd = (0xFF#8 : Byte) ++ (0x00#8 : Byte) ++ (0x00#8 : Byte) ++ 0x01#8 :=
  ⟨pend [] 0xFF000001#32 OperandRegs.reset, ⟨0xFF000001#32, OperandRegs.reset⟩, by decide, rfl⟩

theorem witness_QuantizerProperties : ∃ r r' g g' b b' : Byte, r ≠ r' ∧ g ≠ g' ∧ b ≠ b' ∧
    r'.extractLsb' 3 5 = r.extractLsb' 3 5 ∧ g'.extractLsb' 2 6 = g.extractLsb' 2 6 ∧
    b'.extractLsb' 3 5 = b.extractLsb' 3 5 :=
  ⟨0xF8#8, 0xFF#8, 0xFC#8, 0xFF#8, 0#8, 7#8, by decide⟩

theorem witness_QbufWritesQuantizedPixels : ∃ (s : State) (p : Pending) (px : List (Byte × Byte × Byte)),
    s.Enabled p ∧ QbufReady s.bufBytes p.op ∧ px.length = p.op.lenA.toNat ∧ HoldsRgb s.buf p.op.srcA.toNat px ∧
    p.op.lenA.toNat ≤ p.op.dstCap.toNat :=
  ⟨qbufState, qbufCmd, [(0xFF, 0x00, 0x00), (0x00, 0xFF, 0x00)], by decide⟩

/-- The empty form with the destination region ending where BUF ends (Q-B10). -/
theorem witness_QbufWritesQuantizedPixels_empty : let o := setupOps 0 0 0 0 0xFFFE 1
    (pend [] 2#32 o).Enabled ⟨2#32, o⟩ ∧ QbufReady (2 ^ 16) o ∧ ([] : List (Byte × Byte × Byte)).length = o.lenA.toNat ∧
    HoldsRgb [] o.srcA.toNat [] ∧ o.lenA.toNat ≤ o.dstCap.toNat := by decide

theorem witness_EncodeWritesRuns : ∃ (s : State) (p : Pending) (seq : List Pixel), s.Enabled p ∧
    EncodeReady s.bufBytes p.op ∧ seq.length = p.op.lenA.toNat ∧ HoldsPixels s.buf p.op.srcA.toNat seq ∧
    (encodeRuns seq).length = p.op.dstCap.toNat :=
  ⟨encodeState, encodeCmd, [0x000A, 0x000B, 0x000A], by decide⟩

theorem witness_DecodeWritesPixels : ∃ (s : State) (p : Pending) (runs : List Run), s.Enabled p ∧
    DecodeReady s.bufBytes p.op ∧ runs.length = p.op.lenA.toNat ∧ HoldsRuns s.buf p.op.srcA.toNat runs ∧
    (∀ r ∈ runs, 1 ≤ r.count) ∧ (runs.map Run.count).sum = p.op.dstCap.toNat :=
  ⟨decodeState, decodeCmd, [⟨0x1234, 3⟩, ⟨0x5678, 1⟩], by decide⟩

theorem witness_DecodeInvertsEncode : (∀ r ∈ ([⟨1, 2⟩, ⟨1, 3⟩] : List Run), 1 ≤ r.count) ∧
    ¬MaximalRuns [⟨1, 2⟩, ⟨1, 3⟩] ∧ MaximalRuns [⟨1, 2⟩, ⟨2, 3⟩] := by
  refine ⟨by decide, fun h => h 0 (by decide) rfl, fun k hk => ?_⟩
  obtain rfl : k = 0 := by simpa using hk
  simp

/-- D-5: records 1 and 2 have count 0. -/
def zeroMem : Memory := cellsFrom 0x100
  [1, 0, 0, 0, 1, 0, 0, 0, 2, 0, 0, 0, 0, 0, 0, 0, 3, 0, 0, 0, 0, 0, 0, 0]
def zeroOps : OperandRegs := setupOps 0x100 3 0 0 0x200 4
def zeroRuns : List Run := [⟨1, 1⟩, ⟨2, 0⟩, ⟨3, 0⟩]

theorem witness_ZeroCountIsInvalidRun : (pend zeroMem 4#32 zeroOps).Enabled ⟨4#32, zeroOps⟩ ∧
    DecodeReady (pend zeroMem 4#32 zeroOps).bufBytes zeroOps ∧ zeroRuns.length = zeroOps.lenA.toNat ∧
    HoldsRuns zeroMem zeroOps.srcA.toNat zeroRuns ∧ (1 < zeroRuns.length ∧ zeroRuns[1].count = 0) ∧
    ∀ j, ∀ h : j < 1, (zeroRuns[j]'(Nat.lt_trans h (by decide))).count ≠ 0 := by decide

/-- The second clause: the same records with a RSVD halfword unwritten. -/
theorem witness_RsvdNeverChangesDecode :
    (∃ s t : State, s.Enabled encodeCmd ∧ exec .encode s = .next t ∧ t.err = 0x0#4) ∧
    (∃ s t : State, s.Enabled decodeCmd ∧ exec .decode s = .next t) ∧
    (∃ s : State, s.Enabled decodeCmd ∧ exec .decode s = .fault .uninitRead) ∧
    ∀ a, (∀ k, k < decodeOps.lenA.toNat → a ≠ decodeOps.srcA.toNat + 8 * k + 2 ∧
      a ≠ decodeOps.srcA.toNat + 8 * k + 3) →
      Memory.get (decodeMem.filter fun c => c.1 != 0x102 && c.1 != 0x103) a = decodeMem.get a := by
  refine ⟨⟨encodeState, _, by decide, rfl, rfl⟩, ⟨decodeState, _, by decide, rfl⟩,
    ⟨pend [] 4#32 decodeOps, by decide, rfl⟩, fun a h => ?_⟩
  have h0 := h 0 (by decide)
  rw [get_filter decodeMem fun k => k != 0x102 && k != 0x103, if_pos]
  simpa [decodeOps, setupOps] using h0

/-- The records stand in the destination the ENCODE wrote, and the DECODE's destination lies behind them. -/
theorem witness_RoundTripThroughBuf : (∃ (s : State) (p : Pending) (seq : List Pixel), s.Enabled p ∧
      EncodeReady s.bufBytes p.op ∧ seq.length = p.op.lenA.toNat ∧ HoldsPixels s.buf p.op.srcA.toNat seq ∧
      seq.length ≤ p.op.dstCap.toNat) ∧
    let o := setupOps 0x100 3 0 0 0x118 3
    (o.srcA = encodeOps.dst ∧ o.lenA = (advance encodeState).result ∧ DecodeReady encodeState.bufBytes o ∧
      3 ≤ o.dstCap.toNat) :=
  ⟨⟨encodeState, encodeCmd, [0x000A, 0x000B, 0x000A], by decide⟩, by decide⟩

theorem witness_DiffWritesRecords : ∃ (s : State) (p : Pending) (a b : List Pixel) (ds : List DiffRecord),
    s.Enabled p ∧ DiffReady s.bufBytes p.op ∧ a.length = p.op.lenA.toNat ∧ b.length = p.op.lenB.toNat ∧
    HoldsPixels s.buf p.op.srcA.toNat a ∧ HoldsPixels s.buf p.op.srcB.toNat b ∧ diff a b = .ok ds ∧
    ds.length ≤ p.op.dstCap.toNat ∧ ds ≠ [] :=
  ⟨diffState, diffCmd, [0, 1], [0, 2], [⟨1, 1, 2, 1⟩], by decide, by decide, by decide, by decide, by decide, by decide,
    rfl, by decide, by decide⟩

theorem witness_DiffListsEveryDifference : ([0] : List Pixel).length ≠ ([] : List Pixel).length ∧
    ([0, 1] : List Pixel).length = ([0, 2] : List Pixel).length := ⟨by decide, rfl⟩

theorem witness_DiffProperties : ([0] : List Pixel).length ≠ ([] : List Pixel).length ∧
    diff [0, 1] [0, 2] = .ok [⟨1, 1, 2, 1⟩] := ⟨by decide, rfl⟩

theorem witness_UnequalLengthsMismatch : ∃ (s : State) (p : Pending), s.Enabled p ∧ p.op.lenA ≠ p.op.lenB :=
  ⟨pend [] 5#32 (setupOps 1 2 0x11 3 0x101 2), ⟨5#32, setupOps 1 2 0x11 3 0x101 2⟩, by decide⟩

/-- An enabled state for every operand list, which the clauses on operands alone need. -/
theorem enabled_pend (m : Memory) (w : Word) (o : OperandRegs) : (pend m w o).Enabled ⟨w, o⟩ := ⟨rfl, rfl⟩

/-- One operand list for each clause, in the order of the statement; the second is Q-B4. -/
theorem witness_MisalignedBaseRaisesAlign :
    ((setupOps 7 0 0 0 1 0).dst.toNat % 2 ≠ 0) ∧
    ((setupOps 7 0 0 0 2 0).dst.toNat % 2 = 0 ∧ exec .qbuf (pend [] 2#32 (setupOps 7 0 0 0 2 0)) =
      .next ((pend [] 2#32 (setupOps 7 0 0 0 2 0)).completeOk 0#32 [])) ∧ ((setupOps 1 1 0 0 0x100 1).srcA.toNat % 2 ≠ 0) ∧
    ((setupOps 0 1 0 0 0x102 1).srcA.toNat % 2 = 0 ∧ (setupOps 0 1 0 0 0x102 1).dst.toNat % 4 ≠ 0) ∧
    ((setupOps 0x102 1 0 0 0x200 2).srcA.toNat % 4 ≠ 0) ∧
    ((setupOps 0x100 1 0 0 0x201 2).srcA.toNat % 4 = 0 ∧ (setupOps 0x100 1 0 0 0x201 2).dst.toNat % 2 ≠ 0) ∧
    (let o := setupOps 3 0 5 0 0x100 0; o.lenA = o.lenB ∧ o.srcA.toNat % 2 ≠ 0) ∧
    (let o := setupOps 0 1 0x11 1 0x100 1; o.lenA = o.lenB ∧ o.srcA.toNat % 2 = 0 ∧ o.srcB.toNat % 2 ≠ 0) ∧
    (let o := setupOps 0 1 0x10 1 0x102 1; o.lenA = o.lenB ∧ o.srcA.toNat % 2 = 0 ∧ o.srcB.toNat % 2 = 0 ∧
      o.dst.toNat % 4 ≠ 0) :=
  ⟨by decide, ⟨by decide, rfl⟩, by decide⟩

/-- One operand list for each clause: the region ends one element past BUF, or starts near 2^32. -/
theorem witness_RegionOutsideBufRaisesRange :
    (let o := setupOps 0xFFFF 1 0 0 0x100 1;
      o.dst.toNat % 2 = 0 ∧ ¬RegionFits (2 ^ 16) o.srcA.toNat (3 * o.lenA.toNat)) ∧
    (let o := setupOps 0 0 0 0 0xFFFE 2;
      o.dst.toNat % 2 = 0 ∧ RegionFits (2 ^ 16) o.srcA.toNat (3 * o.lenA.toNat) ∧
        ¬RegionFits (2 ^ 16) o.dst.toNat (2 * o.dstCap.toNat)) ∧
    (let o := setupOps 0xFFFE 2 0 0 0x100 1;
      o.srcA.toNat % 2 = 0 ∧ o.dst.toNat % 4 = 0 ∧ ¬RegionFits (2 ^ 16) o.srcA.toNat (2 * o.lenA.toNat)) ∧
    (let o := setupOps 0 1 0 0 0xFFF8 2;
      o.srcA.toNat % 2 = 0 ∧ o.dst.toNat % 4 = 0 ∧ RegionFits (2 ^ 16) o.srcA.toNat (2 * o.lenA.toNat) ∧
        ¬RegionFits (2 ^ 16) o.dst.toNat (8 * o.dstCap.toNat)) ∧
    (let o := setupOps 0xFFFFFFFC 1 0 0 0x100 1;
      o.srcA.toNat % 4 = 0 ∧ o.dst.toNat % 2 = 0 ∧ ¬RegionFits (2 ^ 16) o.srcA.toNat (8 * o.lenA.toNat)) ∧
    (let o := setupOps 0 0 0 0 0 0x8001;
      o.srcA.toNat % 4 = 0 ∧ o.dst.toNat % 2 = 0 ∧ RegionFits (2 ^ 16) o.srcA.toNat (8 * o.lenA.toNat) ∧
        ¬RegionFits (2 ^ 16) o.dst.toNat (2 * o.dstCap.toNat)) ∧
    (let o := setupOps 0xFFFE 2 0 2 0 0;
      o.lenA = o.lenB ∧ o.srcA.toNat % 2 = 0 ∧ o.srcB.toNat % 2 = 0 ∧ o.dst.toNat % 4 = 0 ∧
        ¬RegionFits (2 ^ 16) o.srcA.toNat (2 * o.lenA.toNat)) ∧
    (let o := setupOps 0 2 0xFFFE 2 0 0;
      o.lenA = o.lenB ∧ o.srcA.toNat % 2 = 0 ∧ o.srcB.toNat % 2 = 0 ∧ o.dst.toNat % 4 = 0 ∧
        RegionFits (2 ^ 16) o.srcA.toNat (2 * o.lenA.toNat) ∧
        ¬RegionFits (2 ^ 16) o.srcB.toNat (2 * o.lenB.toNat)) ∧
    (let o := setupOps 0 4 0x100 4 0xFFFC 1;
      o.lenA = o.lenB ∧ o.srcA.toNat % 2 = 0 ∧ o.srcB.toNat % 2 = 0 ∧ o.dst.toNat % 4 = 0 ∧
        RegionFits (2 ^ 16) o.srcA.toNat (2 * o.lenA.toNat) ∧ RegionFits (2 ^ 16) o.srcB.toNat (2 * o.lenB.toNat) ∧
        ¬RegionFits (2 ^ 16) o.dst.toNat (12 * o.dstCap.toNat)) := by decide

/-- One operand list for each clause, the two regions sharing one element; last, identical sources (F-5). -/
theorem witness_DestinationOverSourceRaisesOverlap :
    (let o := setupOps 0 2 0 0 4 2;
      o.dst.toNat % 2 = 0 ∧ RegionFits (2 ^ 16) o.srcA.toNat (3 * o.lenA.toNat) ∧
        RegionFits (2 ^ 16) o.dst.toNat (2 * o.dstCap.toNat) ∧
        ¬RegionsApart o.dst.toNat (2 * o.dstCap.toNat) o.srcA.toNat (3 * o.lenA.toNat)) ∧
    (let o := setupOps 6 1 0 0 0 1;
      o.srcA.toNat % 2 = 0 ∧ o.dst.toNat % 4 = 0 ∧ RegionFits (2 ^ 16) o.srcA.toNat (2 * o.lenA.toNat) ∧
        RegionFits (2 ^ 16) o.dst.toNat (8 * o.dstCap.toNat) ∧
        ¬RegionsApart o.dst.toNat (8 * o.dstCap.toNat) o.srcA.toNat (2 * o.lenA.toNat)) ∧
    (let o := setupOps 0x100 1 0 0 0x106 1;
      o.srcA.toNat % 4 = 0 ∧ o.dst.toNat % 2 = 0 ∧ RegionFits (2 ^ 16) o.srcA.toNat (8 * o.lenA.toNat) ∧
        RegionFits (2 ^ 16) o.dst.toNat (2 * o.dstCap.toNat) ∧
        ¬RegionsApart o.dst.toNat (2 * o.dstCap.toNat) o.srcA.toNat (8 * o.lenA.toNat)) ∧
    (let o := setupOps 0 2 0 2 0 1;
      o.lenA = o.lenB ∧ o.srcA.toNat % 2 = 0 ∧ o.srcB.toNat % 2 = 0 ∧ o.dst.toNat % 4 = 0 ∧
        RegionFits (2 ^ 16) o.srcA.toNat (2 * o.lenA.toNat) ∧ RegionFits (2 ^ 16) o.srcB.toNat (2 * o.lenB.toNat) ∧
        RegionFits (2 ^ 16) o.dst.toNat (12 * o.dstCap.toNat) ∧
        ¬RegionsApart o.dst.toNat (12 * o.dstCap.toNat) o.srcA.toNat (2 * o.lenA.toNat)) ∧
    (let o := setupOps 0 1 0x10 1 0x10 1;
      o.lenA = o.lenB ∧ o.srcA.toNat % 2 = 0 ∧ o.srcB.toNat % 2 = 0 ∧ o.dst.toNat % 4 = 0 ∧
        RegionFits (2 ^ 16) o.srcA.toNat (2 * o.lenA.toNat) ∧ RegionFits (2 ^ 16) o.srcB.toNat (2 * o.lenB.toNat) ∧
        RegionFits (2 ^ 16) o.dst.toNat (12 * o.dstCap.toNat) ∧
        RegionsApart o.dst.toNat (12 * o.dstCap.toNat) o.srcA.toNat (2 * o.lenA.toNat) ∧
        ¬RegionsApart o.dst.toNat (12 * o.dstCap.toNat) o.srcB.toNat (2 * o.lenB.toNat)) ∧
    (let o := setupOps 0 3 0 3 0x100 0;
      DiffReady (2 ^ 16) o ∧ exec .diff (pend (cellsFrom 0 [1, 0, 2, 0, 3, 0]) 5#32 o) =
        .next ((pend (cellsFrom 0 [1, 0, 2, 0, 3, 0]) 5#32 o).completeOk 0#32 (cellsFrom 0 [1, 0, 2, 0, 3, 0]))) :=
  ⟨by decide, by decide, by decide, by decide, by decide, by decide, rfl⟩

/-- The four sources of the witnesses above, each with a capacity one too small. -/
theorem witness_OutputBeyondCapacityRaisesCapacity :
    (let o := setupOps 0 2 0 0 0x100 1;
      QbufReady (2 ^ 16) o ∧ HoldsRgb qbufMem o.srcA.toNat [(0xFF, 0x00, 0x00), (0x00, 0xFF, 0x00)] ∧
        o.dstCap.toNat < o.lenA.toNat) ∧
    (let o := setupOps 0 3 0 0 0x100 2;
      EncodeReady (2 ^ 16) o ∧ HoldsPixels encodeMem o.srcA.toNat [0x000A, 0x000B, 0x000A] ∧
        o.dstCap.toNat < (encodeRuns [0x000A, 0x000B, 0x000A]).length) ∧
    (let o := setupOps 0x100 2 0 0 0x200 3;
      let runs : List Run := [⟨0x1234, 3⟩, ⟨0x5678, 1⟩];
      DecodeReady (2 ^ 16) o ∧ HoldsRuns decodeMem o.srcA.toNat runs ∧ (∀ r ∈ runs, 1 ≤ r.count) ∧
        o.dstCap.toNat < (runs.map Run.count).sum) ∧
    (let o := setupOps 0 2 0x10 2 0x100 0;
      DiffReady (2 ^ 16) o ∧ HoldsPixels diffMem o.srcA.toNat [0, 1] ∧ HoldsPixels diffMem o.srcB.toNat [0, 2] ∧
        o.dstCap.toNat < [(⟨1, 1, 2, 1⟩ : DiffRecord)].length) ∧
    diff [0, 1] [0, 2] = .ok [⟨1, 1, 2, 1⟩] :=
  ⟨by decide, by decide, by decide, by decide, rfl⟩

/-- The last source byte of each command unwritten, and an error before any read (O-8). -/
theorem witness_UnwrittenSourceByteFaults :
    (QbufReady (2 ^ 16) qbufOps ∧ 5 < 3 * qbufOps.lenA.toNat) ∧
    (EncodeReady (2 ^ 16) encodeOps ∧ 5 < 2 * encodeOps.lenA.toNat) ∧
    (DecodeReady (2 ^ 16) decodeOps ∧ 1 < decodeOps.lenA.toNat ∧ 7 ∈ [0, 1, 4, 5, 6, 7]) ∧
    (DiffReady (2 ^ 16) diffOps ∧ 3 < 2 * diffOps.lenA.toNat) ∧
    (∀ a, Memory.get [] a = none) ∧
    (0x7#4 ∈ [0x2#4, 0x4#4, 0x5#4, 0x6#4, 0x7#4]) ∧
    engineStep (pend [] 3#32 (setupOps 0 2 0 0 0 1)) =
      .next ((pend [] 3#32 (setupOps 0 2 0 0 0 1)).failed 0x7#4 1#32) :=
  ⟨by decide, by decide, by decide, by decide, fun _ => rfl, by decide, rfl⟩

/-- A success and an error. -/
theorem witness_CompletionIsAllOrNothing : (∃ s t : State, engineStep s = .next t ∧ t.err = 0x0#4) ∧
    ∃ s t : State, engineStep s = .next t ∧ t.err ≠ 0x0#4 :=
  ⟨⟨qbufState, _, rfl, rfl⟩, pend [] 0#32 OperandRegs.reset, _, rfl, by decide⟩

theorem witness_SuccessWritesExactlyItsOutput : ∃ (i : Instr) (s t : State) (p : Pending), s.Enabled p ∧
    exec i s = .next t ∧ t.err = 0x0#4 ∧ 0 < outputSize i * t.result.toNat :=
  ⟨.diff, diffState, _, diffCmd, by decide, rfl, rfl, by decide⟩

theorem witness_CommandsKeepOperandsAndCtrl : (∃ (i : Instr) (s t : State), exec i s = .next t) ∧
    ∃ s t : State, engineStep s = .next t := ⟨⟨.encode, encodeState, _, rfl⟩, decodeState, _, rfl⟩

/-- The first and the last operand register; a success and a model fault. -/
theorem witness_CommandsUseLatchedOperands :
    (∃ (s t : State) (w : Word), s.pending = none ∧ s.hostWrite (.reg 0x10) 4 w = .ok t) ∧
    (∃ s t u : State, s.hostWrite (.reg 0x14) 4 1#32 = .ok t ∧ s.hostWrite (.reg 0x28) 4 1#32 = .ok u) ∧
    (∃ s t : State, engineStep s = .next t) ∧ ∃ (s : State) (r : Fault), engineStep s = .fault r :=
  ⟨⟨State.reset, _, 1#32, rfl, rfl⟩, ⟨diffState, _, _, rfl, rfl⟩, ⟨diffState, _, rfl⟩,
    pend [] 5#32 diffOps, _, rfl⟩

theorem inv_qbufState : qbufState.Inv := ⟨by decide, by decide, by decide, by decide, by decide⟩

theorem witness_StepKeepsInvariant : ∃ s t : State, s.Inv ∧ step s = .next t := ⟨qbufState, _, inv_qbufState, rfl⟩

theorem witness_PendingCommandCompletes : ∃ (s : State) (p : Pending), s.Enabled p ∧ s.env.delay = 2 ∧
    s.env.script ≠ [] ∧ ∀ h ∈ s.env.script, h ≠ .reset :=
  ⟨pendWith 1#32 [rd .status, rd .status, rd .status] 2, ⟨1#32, OperandRegs.reset⟩, by decide⟩

/-- With no read of BUSY = 1, and with three. -/
theorem witness_WaitEndsAfterCompletion : ∀ k ∈ [0, 3], ∃ (s t : State) (p : Pending) (rest : List HostStep),
    s.Enabled p ∧ s.env.delay = k ∧ s.env.script = .wait :: rest ∧ engineStep s = .next t := by
  intro k _
  exact ⟨pendWith 1#32 [.wait] k, _, ⟨1#32, OperandRegs.reset⟩, [], ⟨rfl, rfl⟩, rfl, rfl, rfl⟩

/-- Both outcomes of two CMD writes in a row. -/
theorem witness_BackToBackCommands :
    let s (d : Nat) := host [wr .cmd 0#32, wr .cmd 0#32] [d]
    (∀ d ∈ [0, 1], (s d).fault = none ∧ (s d).pending = none ∧
      (s d).env.script = [.write (.reg 0x10) 4 0#32, .write (.reg 0x10) 4 0#32]) ∧
    (advance (s 1)).env.delay ≠ 0 ∧ (advance (s 0)).env.delay = 0 ∧ ∃ t, engineStep (advance (s 0)) = .next t :=
  ⟨by decide, by decide, by decide, _, rfl⟩

end Sys2Proof.Tests
end

section
/-! PROOFS. What the register window, a legal write, the engine's move and one step can do, said once, and the
obligations about the state (10_state.md). -/

namespace Sys2Proof.Machine

/-! ## The register window (10_state.md R20 to R22, 20_memory.md R67) -/

theorem Reg.offset_lt (r : Reg) : r.offset < 0x34 := by cases r <;> decide

theorem Reg.offset_aligned (r : Reg) : r.offset % 4 = 0 := by cases r <;> rfl

theorem regAt_offset (r : Reg) : regAt r.offset = some r := by cases r <;> rfl

theorem offset_of_regAt {off : Nat} {r : Reg} (h : regAt off = some r) : r.offset = off := by
  simpa using List.find?_some h

theorem regAt_reserved {off : Nat} (h : 0x34 ≤ off) : regAt off = none := by
  cases hr : regAt off with
  | none => rfl
  | some r =>
    have := offset_of_regAt hr
    have := r.offset_lt
    omega

/-- An aligned word access to the register window is allowed in every state. -/
theorem access_reg (s : State) {off : Nat} (hoff : off < 0x100) (ha : off % 4 = 0) :
    s.access (.reg off) 4 = .ok (.reg off) := by
  simp [State.access, Params.locate, accessFault, regWindowBytes, hoff, ha]

theorem hostRead_reg (s : State) {off : Nat} (hoff : off < 0x100) (ha : off % 4 = 0) :
    s.hostRead (.reg off) 4 = .ok (s.readOffset off) := by
  simp [State.hostRead, access_reg s hoff ha, State.readSlot]

theorem hostWrite_reg (s : State) {off : Nat} (v : Word) (hoff : off < 0x100) (ha : off % 4 = 0) :
    s.hostWrite (.reg off) 4 v = .ok (s.writeOffset off v) := by
  simp [State.hostWrite, access_reg s hoff ha, State.writeSlot]

theorem writeOffset_offset (s : State) (r : Reg) (v : Word) : s.writeOffset r.offset v = s.writeReg r v := by
  simp [State.writeOffset, regAt_offset]

/-- A word read at a named register's offset returns that register. -/
theorem hostRead_offset (s : State) (r : Reg) : s.hostRead (.reg r.offset) 4 = .ok (s.readReg r) := by
  rw [hostRead_reg s (r.offset_lt.trans (by decide)) r.offset_aligned]
  simp [State.readOffset, regAt_offset]

/-- A word write at a named register's offset writes that register. -/
theorem hostWrite_offset (s : State) (r : Reg) (v : Word) :
    s.hostWrite (.reg r.offset) 4 v = .ok (s.writeReg r v) := by
  rw [hostWrite_reg s v (r.offset_lt.trans (by decide)) r.offset_aligned, writeOffset_offset]

theorem hostRead_ctrl (s : State) : s.hostRead (.reg 0x08) 4 = .ok s.ctrlWord := hostRead_offset s .ctrl

theorem hostWrite_ctrl (s : State) (v : Word) : s.hostWrite (.reg 0x08) 4 v = .ok (s.writeCtrl v) :=
  hostWrite_offset s .ctrl v

theorem hostWrite_status (s : State) (v : Word) : s.hostWrite (.reg 0x0C) 4 v = .ok (s.writeStatus v) :=
  hostWrite_offset s .status v

theorem hostWrite_cmd (s : State) (w : Word) : s.hostWrite (.reg 0x10) 4 w = .ok (s.offer w) :=
  hostWrite_offset s .cmd w

/-! ## BUSY (10_state.md R28) -/

theorem State.busy_eq_true (s : State) : s.busy = true ↔ s.pending ≠ none := by
  simp [State.busy, Option.isSome_iff_ne_none]

theorem statusWord_busy (s : State) : s.statusWord.getLsbD 0 = s.busy := statusWord_getLsbD s 0

theorem statusWord_busy_eq_true (s : State) : s.statusWord.getLsbD 0 = true ↔ s.pending ≠ none := by
  rw [statusWord_busy, State.busy_eq_true]

theorem statusWord_busy_eq_false (s : State) : s.statusWord.getLsbD 0 = false ↔ s.pending = none := by
  rw [statusWord_busy, State.busy, Option.isSome_eq_false_iff, Option.isNone_iff_eq_none]

/-! ## A CMD write (40_command_cycle.md R120, R121) -/

theorem offer_idle {s : State} (w : Word) (h : s.pending = none) : s.offer w = s.accept w := by
  simp [State.offer, State.busy, h]

theorem offer_busy {s : State} (w : Word) (h : s.pending ≠ none) : s.offer w = { s with cmdovr := true } := by
  simp [State.offer, (State.busy_eq_true s).mpr h]

/-! ## What CFG and CTRL read as (10_state.md R25, R26) -/

/-- A legal BUF_AW fits CFG's low byte, so CFG holds all of it. -/
theorem readReg_cfg {s : State} (h : s.params.bufAw ≤ 31) : s.readReg .cfg = BitVec.ofNat 32 s.params.bufAw := by
  refine BitVec.eq_of_toNat_eq ?_
  change (0#24 ++ BitVec.ofNat 8 s.params.bufAw).toNat = _
  rw [BitVec.toNat_append, BitVec.toNat_ofNat, BitVec.toNat_ofNat, BitVec.toNat_ofNat,
    Nat.mod_eq_of_lt (by omega : s.params.bufAw < 2 ^ 8), Nat.mod_eq_of_lt (by omega : s.params.bufAw < 2 ^ 32)]
  simp

theorem ctrlWord_writeCtrl (s : State) (v : Word) : (s.writeCtrl v).ctrlWord = v &&& 1#32 := by
  refine BitVec.eq_of_getLsbD_eq fun i _ => ?_
  rw [ctrlWord_getLsbD, BitVec.getLsbD_and, BitVec.getLsbD_one]
  by_cases hi : i = 0 <;> simp [hi]

/-! ## What a legal write can do -/

/-- A legal write is a CMD write, a STATUS write, or changes at most IE, the operand registers and BUF. -/
theorem writeSlot_cases (s : State) (w : Nat) (v : Word) (slot : Slot) :
    (slot = .reg 0x10 ∧ s.writeSlot w v slot = s.offer v) ∨
    (slot = .reg 0x0C ∧ s.writeSlot w v slot = s.writeStatus v) ∨
    ∃ ie ops buf, s.writeSlot w v slot = { s with ie := ie, ops := ops, buf := buf } := by
  cases slot with
  | buf a => exact .inr (.inr ⟨s.ie, s.ops, _, rfl⟩)
  | reg off =>
    cases hr : regAt off with
    | none => exact .inr (.inr ⟨s.ie, s.ops, s.buf, by simp [State.writeSlot, State.writeOffset, hr]⟩)
    | some r =>
      obtain rfl := offset_of_regAt hr
      simp only [State.writeSlot, writeOffset_offset]
      cases r with
      | cmd => exact .inl ⟨rfl, rfl⟩
      | status => exact .inr (.inl ⟨rfl, rfl⟩)
      | ctrl => exact .inr (.inr ⟨_, s.ops, s.buf, rfl⟩)
      | srcA | srcB | dst | lenA | lenB | dstCap => exact .inr (.inr ⟨s.ie, _, s.buf, rfl⟩)
      | id | cfg | result | errInfo => exact .inr (.inr ⟨s.ie, s.ops, s.buf, rfl⟩)

/-- Only a CMD write while idle changes PENDING. -/
theorem writeSlot_pending {s : State} {w : Nat} {v : Word} {slot : Slot}
    (h : slot ≠ .reg 0x10 ∨ s.pending ≠ none) : (s.writeSlot w v slot).pending = s.pending := by
  rcases writeSlot_cases s w v slot with ⟨hslot, ht⟩ | ⟨-, ht⟩ | ⟨ie, ops, buf, ht⟩ <;> rw [ht]
  · rw [offer_busy v (h.resolve_left (not_not_intro hslot))]
  · rfl

/-- Only a CMD write while busy sets CMDOVR, and only a STATUS write with bit 2 set clears it. -/
theorem writeSlot_cmdovr (s : State) (w : Nat) (v : Word) (slot : Slot) :
    (s.writeSlot w v slot).cmdovr = s.cmdovr ∨
    (slot = .reg 0x10 ∧ s.pending ≠ none ∧ (s.writeSlot w v slot).cmdovr = true) ∨
    (slot = .reg 0x0C ∧ v.getLsbD 2 = true ∧ (s.writeSlot w v slot).cmdovr = false) := by
  rcases writeSlot_cases s w v slot with ⟨hslot, ht⟩ | ⟨hslot, ht⟩ | ⟨ie, ops, buf, ht⟩ <;> rw [ht]
  · by_cases hp : s.pending = none
    · exact .inl (by rw [offer_idle v hp]; rfl)
    · exact .inr (.inl ⟨hslot, hp, by rw [offer_busy v hp]⟩)
  · cases hv : v.getLsbD 2 with
    | false => exact .inl (by rw [State.writeStatus_cmdovr, hv, Bool.not_false, Bool.and_true])
    | true => exact .inr (.inr ⟨hslot, rfl, by rw [State.writeStatus_cmdovr, hv, Bool.not_true, Bool.and_false]⟩)
  · exact .inl rfl

theorem hostWrite_ok {s t : State} {p : Place} {w : Nat} {v : Word} (h : s.hostWrite p w v = .ok t) :
    ∃ slot, s.access p w = .ok slot ∧ t = s.writeSlot w v slot := by
  unfold State.hostWrite at h
  split at h
  · cases h
  · rename_i slot hslot
    exact ⟨slot, hslot, by simpa using h.symm⟩

theorem access_width {s : State} {p : Place} {w off : Nat} (h : s.access p w = .ok (.reg off)) : w = 4 := by
  rcases access_eq_ok h with ⟨_, -, hw, -⟩ | ⟨_, hslot, -⟩
  · exact hw
  · cases hslot

theorem access_issue (s : State) (rest : List HostStep) (p : Place) (w : Nat) :
    (s.issue rest).access p w = s.access p w := rfl

/-! ## What the engine's move and one step can do -/

/-- The engine's move answers a next state only by one of the two completions (40_command_cycle.md R131, R132). -/
theorem engineStep_next {s t : State} (h : engineStep s = .next t) :
    ∃ p, s.Enabled p ∧ ((∃ e, t = s.completeError e) ∨ ∃ r m, t = s.completeOk r m) := by
  obtain ⟨p, hp, -⟩ := withPending_next h
  refine ⟨p, hp, ?_⟩
  rw [engineStep_pending hp] at h
  split at h
  · obtain ⟨_, -, ⟨e, -, ht⟩ | hw⟩ := exec_next h
    · exact .inl ⟨e, ht⟩
    · exact .inr hw.ok
  · exact .inl ⟨_, by simpa using h.symm⟩

/-- What every engine step that answers a next state leaves in the flags: DONE set, PENDING empty, IE and CMDOVR as
they were. -/
theorem engineStep_flags {s t : State} (h : engineStep s = .next t) :
    t.pending = none ∧ t.done = true ∧ t.cmdovr = s.cmdovr ∧ t.ie = s.ie := by
  obtain ⟨-, -, ⟨e, rfl⟩ | ⟨r, m, rfl⟩⟩ := engineStep_next h
  · exact ⟨rfl, rfl, rfl, rfl⟩
  · exact ⟨rfl, rfl, rfl, rfl⟩

/-- A host step other than a write or a reset changes the host's side alone. -/
theorem performHost_cases {h : HostStep} {rest : List HostStep} {s t : State} (ht : performHost h rest s = .next t) :
    (h = .reset ∧ t = (s.issue rest).afterReset) ∨
    (∃ p w v slot, h = .write p w v ∧ s.access p w = .ok slot ∧ t = (s.issue rest).writeSlot w v slot) ∨
    ∃ env, t = { s with env := env } := by
  rcases performHost_next ht with ⟨p, w, v, -, -, rfl⟩ | hw | ⟨-, rfl⟩ | hr
  · exact .inr (.inr ⟨_, rfl⟩)
  · exact .inr (.inl hw)
  · exact .inr (.inr ⟨_, rfl⟩)
  · exact .inl hr

/-- Every way a step can change the PXC: the engine's move, the host's reset or its write. Any other step changes at
most the host's side. -/
theorem step_cases {s t : State} (h : step s = .next t) :
    (s.pending ≠ none ∧ engineStep s = .next t) ∨
    (∃ rest, s.env.script = .reset :: rest ∧ t = (s.issue rest).afterReset) ∨
    (∃ p w v rest slot, s.env.script = .write p w v :: rest ∧ s.access p w = .ok slot ∧
      t = (s.issue rest).writeSlot w v slot) ∨
    ∃ env, t = { s with env := env } := by
  obtain ⟨hf, ⟨-, p, hp, hmove⟩ | ⟨-, ⟨-, rfl⟩ | ⟨a, rest, hscript, hhost⟩⟩⟩ := step_next h
  · refine .inl ⟨by simp [hp], ?_⟩
    rw [engineStep_pending ⟨hf, hp⟩]
    rcases hmove with ⟨i, hi, hexec⟩ | ⟨⟨e, he⟩, rfl⟩
    · simpa [hi] using hexec
    · simp [he]
  · exact .inr (.inr (.inr ⟨_, rfl⟩))
  · rcases performHost_cases hhost with ⟨rfl, ht⟩ | ⟨p, w, v, slot, rfl, hacc, ht⟩ | hquiet
    · exact .inr (.inl ⟨rest, hscript, ht⟩)
    · exact .inr (.inr (.inl ⟨p, w, v, rest, slot, hscript, hacc, ht⟩))
    · exact .inr (.inr (.inr hquiet))

/-- What a step that changes PENDING was (10_state.md R28). -/
theorem step_changes_pending {s t : State} (h : step s = .next t) (hne : t.pending ≠ s.pending) :
    (s.pending ≠ none ∧ engineStep s = .next t) ∨ (∃ rest, s.env.script = .reset :: rest) ∨
      (s.pending = none ∧ ∃ p v rest, s.env.script = .write p 4 v :: rest ∧ s.access p 4 = .ok (.reg 0x10)) := by
  rcases step_cases h with he | ⟨rest, hs, -⟩ | ⟨p, w, v, rest, slot, hs, hacc, rfl⟩ | ⟨env, rfl⟩
  · exact .inl he
  · exact .inr (.inl ⟨rest, hs⟩)
  · by_cases hslot : slot ≠ .reg 0x10 ∨ s.pending ≠ none
    · exact absurd (writeSlot_pending (s := s.issue rest) hslot) hne
    · obtain ⟨rfl, hidle⟩ : slot = .reg 0x10 ∧ s.pending = none := by simpa using hslot
      obtain rfl := access_width hacc
      exact .inr (.inr ⟨hidle, p, v, rest, hs, hacc⟩)
  · exact absurd rfl hne

/-- What a step that changes CMDOVR was, and which way it went (10_state.md R30). -/
theorem step_changes_cmdovr {s t : State} (h : step s = .next t) (hne : t.cmdovr ≠ s.cmdovr) :
    (t.cmdovr = true ∧ s.pending ≠ none ∧
      ∃ p v rest, s.env.script = .write p 4 v :: rest ∧ s.access p 4 = .ok (.reg 0x10)) ∨
    (t.cmdovr = false ∧ ((∃ p v rest, s.env.script = .write p 4 v :: rest ∧ s.access p 4 = .ok (.reg 0x0C) ∧
      v.getLsbD 2 = true) ∨ ∃ rest, s.env.script = .reset :: rest)) := by
  rcases step_cases h with ⟨-, he⟩ | ⟨rest, hs, rfl⟩ | ⟨p, w, v, rest, slot, hs, hacc, rfl⟩ | ⟨env, rfl⟩
  · obtain ⟨-, -, hsame, -⟩ := engineStep_flags he
    exact absurd hsame hne
  · exact .inr ⟨rfl, .inr ⟨rest, hs⟩⟩
  · rcases writeSlot_cmdovr (s.issue rest) w v slot with hsame | ⟨rfl, hp, hset⟩ | ⟨rfl, hv, hclear⟩
    · exact absurd hsame hne
    · obtain rfl := access_width hacc
      exact .inl ⟨hset, hp, p, v, rest, hs, hacc⟩
    · obtain rfl := access_width hacc
      exact .inr ⟨hclear, .inl ⟨p, v, rest, hs, hacc, hv⟩⟩
  · exact absurd rfl hne

/-! ## The faulted state (10_state.md R52) -/

theorem step_faulted {s : State} {r : Fault} (h : s.fault = some r) : step s = .fault r := by
  simp [step, h]

theorem advance_faulted {s : State} {r : Fault} (h : s.fault = some r) : (advance s).fault = some r := by
  simp [advance, step_faulted h]

theorem advanceBy_faulted {s : State} {r : Fault} (h : s.fault = some r) (n : Nat) :
    (advanceBy n s).fault = some r := by
  induction n generalizing s with
  | zero => exact h
  | succ n ih => exact ih (advance_faulted h)

/-! ## The obligations -/

/-- Settles O13: by what each operation does to PENDING, and for a whole step by `step_changes_pending`. -/
theorem busyIsPendingOccupied : Obligations.BusyIsPendingOccupied := by
  have hkeeps {h : HostStep} {rest : List HostStep} {s t : State} (ht : performHost h rest s = .next t)
      (hreset : h ≠ .reset) (hwrite : ∀ p w v, h ≠ .write p w v) : t.pending = s.pending := by
    rcases performHost_cases ht with ⟨rfl, -⟩ | ⟨p, w, v, -, rfl, -⟩ | ⟨env, rfl⟩
    · exact absurd rfl hreset
    · exact absurd rfl (hwrite p w v)
    · rfl
  refine ⟨statusWord_busy_eq_true, fun s w hidle => ?_, fun s t h => ?_, fun s t rest h => ?_,
    fun s t p w v h hor => ?_, fun s t p w rest h => hkeeps h nofun nofun, fun s t rest h => hkeeps h nofun nofun,
    fun s t => step_changes_pending⟩
  · exact ⟨_, hostWrite_cmd s w, (statusWord_busy_eq_true _).mpr (by simp [offer_idle w hidle])⟩
  · obtain ⟨hempty, -⟩ := engineStep_flags h
    exact (statusWord_busy_eq_false t).mpr hempty
  · obtain rfl : (s.issue rest).afterReset = t := by simpa [performHost] using h
    exact (statusWord_busy_eq_false _).mpr rfl
  · obtain ⟨slot, hslot, rfl⟩ := hostWrite_ok h
    refine writeSlot_pending (hor.imp_left ?_)
    rintro hne rfl
    exact hne hslot

/-- Settles O14: the write rule of R32, bit by bit. -/
theorem statusWriteClearsByOnes : Obligations.StatusWriteClearsByOnes := by
  have hclear (old bit : Bool) : (old && !bit) = if bit then false else old := by cases bit <;> simp
  intro s v
  rw [hostWrite_status, State.writeStatus, hclear, hclear]

/-- Settles O15: CTRL reads bit 0 of what was written, and IRQ follows it. -/
theorem ctrlHoldsInterruptEnable : Obligations.CtrlHoldsInterruptEnable := by
  refine ⟨rfl, fun s v => ⟨s.writeCtrl v, hostWrite_ctrl s v, rfl, ?_, rfl⟩⟩
  rw [hostRead_ctrl, ctrlWord_writeCtrl]

/-- Settles O19: a step that changes CMDOVR is one of the three of `step_changes_cmdovr`. -/
theorem overrunIsSticky : Obligations.OverrunIsSticky := by
  refine ⟨fun s w hp => ⟨_, hostWrite_cmd s w, by rw [offer_busy w hp]⟩, fun s t h h0 h1 => ?_,
    fun s t h h1 h0 => ?_, fun s t w hidle h => ?_, fun s t h => ?_⟩
  · rcases step_changes_cmdovr h (by simp [h0, h1]) with ⟨-, hset⟩ | ⟨hclear, -⟩
    · exact hset
    · simp [h1] at hclear
  · rcases step_changes_cmdovr h (by simp [h0, h1]) with ⟨hset, -⟩ | ⟨-, hclear⟩
    · simp [h0] at hset
    · exact hclear
  · obtain rfl : s.accept w = t := by simpa [hostWrite_cmd, offer_idle w hidle] using h
    rfl
  · obtain ⟨-, -, hsame, -⟩ := engineStep_flags h
    exact hsame

/-- Settles O21: IRQ is IE and DONE, so each clause is what its operation does to those two. -/
theorem irqIsCompletionLevel : Obligations.IrqIsCompletionLevel := by
  refine ⟨fun s => by simp [State.irq], fun s t v hv h => ?_, fun s t w hidle h => ?_, fun s t v hv h => ?_,
    fun s t rest h => ?_, fun s t h => ?_⟩
  · obtain rfl : s.writeStatus v = t := by simpa [hostWrite_status] using h
    rw [State.irq, State.writeStatus_done, hv, Bool.not_true, Bool.and_false, Bool.and_false]
  · obtain rfl : s.accept w = t := by simpa [hostWrite_cmd, offer_idle w hidle] using h
    simp [State.irq]
  · obtain rfl : s.writeCtrl v = t := by simpa [hostWrite_ctrl] using h
    rw [State.irq, State.writeCtrl_ie, hv, Bool.false_and]
  · obtain rfl : (s.issue rest).afterReset = t := by simpa [performHost] using h
    rfl
  · obtain ⟨-, hdone, -, hie⟩ := engineStep_flags h
    simp [State.irq, hdone, hie]

/-- Settles O7, by induction on the number of steps. -/
theorem faultIsFinal : Obligations.FaultIsFinal :=
  ⟨rfl, fun _ _ h => ⟨step_faulted h, advanceBy_faulted h⟩⟩

/-- Settles O10: a reserved offset names no register, and the read-only registers ignore a write. -/
theorem reservedAndReadOnlyOffsets : Obligations.ReservedAndReadOnlyOffsets := by
  refine fun s => ⟨fun off hlo hhi ha => ⟨?_, fun v => ?_⟩, fun off hoff v => ?_, hostRead_offset s .cmd⟩
  · simp [hostRead_reg s hhi ha, State.readOffset, regAt_reserved hlo]
  · simp [hostWrite_reg s v hhi ha, State.writeOffset, regAt_reserved hlo]
  · rcases hoff with rfl | rfl | rfl | rfl
    · exact hostWrite_offset s .id v
    · exact hostWrite_offset s .cfg v
    · exact hostWrite_offset s .result v
    · exact hostWrite_offset s .errInfo v

/-- Settles O11: a legal BUF_AW fits the 8 bits CFG has for it. -/
theorem identityAndConfig : Obligations.IdentityAndConfig := by
  refine fun s => ⟨hostRead_offset s .id, fun ⟨_, hle, _⟩ => ?_⟩
  exact (hostRead_offset s .cfg).trans (congrArg _ (readReg_cfg hle))

end Sys2Proof.Machine
end

section
/-! PROOFS. What an allowed BUF access does, a narrow read of a wider write, the registers a register write leaves
alone, and the obligations about memory (20_memory.md) that follow. -/

namespace Sys2Proof.Machine

/-! ## Part of a wider write (20_memory.md R62 to R64) -/

/-- The little-endian bytes of a value, cut after the first `m`. -/
theorem leBytes_add (m n v : Nat) : leBytes (m + n) v = leBytes m v ++ leBytes n (v / 256 ^ m) := by
  induction m generalizing v with
  | zero => simp [leBytes]
  | succ m ih => rw [Nat.succ_add, leBytes, leBytes, ih, Nat.div_div_eq_div_mul, Nat.pow_succ', List.cons_append]

/-- `n` bytes read at offset `k` inside an `N`-byte write are that slice of the value. -/
theorem memRead_memWrite_slice (m : Memory) (a v : Nat) {k n N : Nat} (h : k + n ≤ N) :
    memRead (memWrite m a N v) (a + k) n = some (v / 256 ^ k % 256 ^ n) := by
  obtain ⟨r, rfl⟩ := Nat.exists_eq_add_of_le h
  rw [memWrite, leBytes_add (k + n), leBytes_add k]
  simpa using memRead_writeBytes_middle m a n (v / 256 ^ k) (leBytes k v) (leBytes r (v / 256 ^ (k + n)))

/-! ## Allowed accesses (20_memory.md R60, R65) -/

/-- While idle, an aligned access of 1, 2 or 4 bytes inside BUF reaches its cells. -/
theorem access_buf {s : State} {a w : Nat} (hidle : s.pending = none) (hw : w = 1 ∨ w = 2 ∨ w = 4) (ha : a % w = 0)
    (hlt : a < s.bufBytes) : s.access (.buf a) w = .ok (.buf a) := by
  have hin : a < s.params.bufBytes := hlt
  simp [State.access, Params.locate, accessFault, State.busy, hin, hidle, hw, ha]

/-- An allowed read of written cells returns their little-endian value. -/
theorem hostRead_buf {s : State} {a w x : Nat} (hidle : s.pending = none) (hw : w = 1 ∨ w = 2 ∨ w = 4)
    (ha : a % w = 0) (hlt : a < s.bufBytes) (hx : memRead s.buf a w = some x) :
    s.hostRead (.buf a) w = .ok (BitVec.ofNat 32 x) := by
  simp [State.hostRead, access_buf hidle hw ha hlt, State.readSlot, hx]

/-- An allowed write stores its value's bytes. -/
theorem hostWrite_buf {s : State} {a w : Nat} (v : Word) (hidle : s.pending = none) (hw : w = 1 ∨ w = 2 ∨ w = 4)
    (ha : a % w = 0) (hlt : a < s.bufBytes) :
    s.hostWrite (.buf a) w v = .ok { s with buf := memWrite s.buf a w v.toNat } := by
  simp [State.hostWrite, access_buf hidle hw ha hlt, State.writeSlot]

/-- An allowed access reaches the slot its window maps it to. -/
theorem locate_of_access {s : State} {p : Place} {w : Nat} {slot : Slot} (h : s.access p w = .ok slot) :
    Params.locate s.params p = some slot := by
  unfold State.access at h
  split at h
  · cases h
  · rename_i found hloc
    split at h
    · cases h
    · obtain rfl : found = slot := by simpa using h
      exact hloc

/-- An access by BUF address reaches that address's cells and nothing else. -/
theorem access_buf_slot {s : State} {a w : Nat} {slot : Slot} (h : s.access (.buf a) w = .ok slot) :
    slot = .buf a := by
  have hloc := locate_of_access h
  simp only [Params.locate, Option.ite_none_right_eq_some, Option.some.injEq] at hloc
  exact hloc.2.symm

/-- An access by register offset reaches that offset and nothing else. -/
theorem access_reg_slot {s : State} {off w : Nat} {slot : Slot} (h : s.access (.reg off) w = .ok slot) :
    slot = .reg off := by
  have hloc := locate_of_access h
  simp only [Params.locate, Option.ite_none_right_eq_some, Option.some.injEq] at hloc
  exact hloc.2.symm

/-! ## What a register write leaves alone (20_memory.md R70) -/

/-- Whether a register access is allowed does not depend on the state. -/
theorem access_reg_congr (s t : State) (off w : Nat) : t.access (.reg off) w = s.access (.reg off) w := by
  unfold State.access Params.locate
  by_cases hoff : off < regWindowBytes <;> simp [hoff, accessFault]

/-- A register read returns the same from two states in which the register reads the same. -/
theorem hostRead_reg_congr {s t : State} {off : Nat} (w : Nat) (h : t.readOffset off = s.readOffset off) :
    t.hostRead (.reg off) w = s.hostRead (.reg off) w := by
  unfold State.hostRead
  rw [access_reg_congr s t]
  cases hacc : s.access (.reg off) w with
  | error r => rfl
  | ok slot =>
    obtain rfl := access_reg_slot hacc
    simp [State.readSlot, h]

/-- A write to a register other than STATUS and CMD leaves every other register reading as before. -/
theorem readReg_writeReg_of_ne (s : State) (v : Word) {r q : Reg} (hs : r ≠ .status) (hc : r ≠ .cmd) (hq : q ≠ r) :
    (s.writeReg r v).readReg q = s.readReg q := by
  cases r with
  | id | cfg | result | errInfo => rfl
  | status => exact absurd rfl hs
  | cmd => exact absurd rfl hc
  | ctrl | srcA | srcB | dst | lenA | lenB | dstCap =>
    revert hq
    cases q <;> simp [State.writeReg, State.readReg, State.statusWord, State.ctrlWord, State.busy]

theorem readOffset_writeOffset_of_ne (s : State) (v : Word) {off off' : Nat} (hs : off ≠ 0x0C) (hc : off ≠ 0x10)
    (hne : off' ≠ off) : (s.writeOffset off v).readOffset off' = s.readOffset off' := by
  cases hr : regAt off with
  | none => simp [State.writeOffset, hr]
  | some r =>
    obtain rfl := offset_of_regAt hr
    rw [writeOffset_offset]
    cases hq : regAt off' with
    | none => simp [State.readOffset, hq]
    | some q =>
      obtain rfl := offset_of_regAt hq
      simp only [State.readOffset, regAt_offset]
      exact readReg_writeReg_of_ne s v (ne_of_apply_ne Reg.offset hs) (ne_of_apply_ne Reg.offset hc)
        (ne_of_apply_ne Reg.offset hne)

/-- No register write changes a BUF cell, STATUS and CMD included. -/
theorem writeOffset_buf (s : State) (off : Nat) (v : Word) : (s.writeOffset off v).buf = s.buf := by
  cases hr : regAt off with
  | none => simp [State.writeOffset, hr]
  | some r =>
    obtain rfl := offset_of_regAt hr
    rw [writeOffset_offset]
    cases r with
    | cmd => simp only [State.writeReg, State.offer]; split <;> rfl
    | _ => rfl

/-! ## The obligations -/

/-- Settles O26: each view is a slice of the four bytes written. -/
theorem mixedWidthViews : Obligations.MixedWidthViews := by
  intro s a v hidle ha hfit
  have hv := v.isLt
  have hin {k : Nat} (hk : k < 4) : a + k < s.bufBytes := by omega
  have hslice {k n : Nat} (h : k + n ≤ 4) := memRead_memWrite_slice s.buf a v.toNat h
  have low : memRead (memWrite s.buf a 4 v.toNat) a 2 = some (v.toNat % 2 ^ 16) := by
    simpa using hslice (k := 0) (n := 2) (by decide)
  have high : memRead (memWrite s.buf a 4 v.toNat) (a + 2) 2 = some (v.toNat / 2 ^ 16) := by
    rw [hslice (by decide)]
    exact congrArg some (by omega)
  have top : memRead (memWrite s.buf a 4 v.toNat) (a + 3) 1 = some (v.toNat / 2 ^ 24) := by
    rw [hslice (by decide)]
    exact congrArg some (by omega)
  refine ⟨_, hostWrite_buf v hidle (by decide) ha (hin (k := 0) (by decide)), ?_, ?_, ?_, ?_, ?_⟩
  · exact hostRead_buf hidle (by decide) (by omega) (hin (k := 0) (by decide)) low
  · exact hostRead_buf hidle (by decide) (by omega) (hin (k := 2) (by decide)) high
  · exact hostRead_buf hidle (by decide) (by omega) (hin (k := 3) (by decide)) top
  · rw [readPixel_eq_some, low]
    simp
  · rw [readPixel_eq_some, high]
    simp [Nat.shiftRight_eq_div_pow]
    omega

/-- Settles O28: a read changes the host's side alone, on which no read depends; a register write reaches its own
register, and a BUF write its own cells. -/
theorem readsHaveNoSideEffect : Obligations.ReadsHaveNoSideEffect := by
  refine ⟨fun s t p w rest h => ?_, fun s t off v hs hc h => ?_, fun s t a w v h => ?_⟩
  · rcases performHost_cases h with ⟨hread, -⟩ | ⟨_, _, _, _, hread, -⟩ | ⟨env, rfl⟩
    · cases hread
    · cases hread
    · exact ⟨rfl, fun q u => rfl⟩
  · obtain ⟨slot, hslot, rfl⟩ := hostWrite_ok h
    obtain rfl := access_reg_slot hslot
    exact ⟨writeOffset_buf s off v, fun off' hne => hostRead_reg_congr 4 (readOffset_writeOffset_of_ne s v hs hc hne)⟩
  · obtain ⟨slot, hslot, rfl⟩ := hostWrite_ok h
    obtain rfl := access_buf_slot hslot
    rfl

end Sys2Proof.Machine
end

section
/-! PROOFS. Which words the decoder rejects, the engine's move on such a word, and the obligation about illegal words
(30_encoding.md). -/

namespace Sys2Proof

/-! ## The fields of a command word as numbers (30_encoding.md R90) -/

theorem opcodeField_eq_iff (w : Word) (k : BitVec 8) : opcodeField w = k ↔ w.toNat % 256 = k.toNat := by
  rw [← BitVec.toNat_inj, opcodeField, BitVec.extractLsb'_toNat, Nat.shiftRight_zero]

theorem upperBits_eq_zero_iff (w : Word) : w.extractLsb' 8 24 = 0#24 ↔ w.toNat / 256 = 0 := by
  have := w.isLt
  rw [← BitVec.toNat_inj, BitVec.extractLsb'_toNat, Nat.shiftRight_eq_div_pow, BitVec.toNat_zero]
  omega

/-! ## The words the decoder rejects (30_encoding.md R93, R95) -/

theorem requireUpperZero_error_iff (w : Word) (i : Instr) :
    (∃ e, requireUpperZero w i = .error e) ↔ w.toNat / 256 ≠ 0 := by
  rw [requireUpperZero, ne_eq, ← upperBits_eq_zero_iff]
  by_cases h : w.extractLsb' 8 24 = 0#24 <;> simp [h]

/-- A word is rejected for its opcode, or for an upper bit set where its row carries no immediates. -/
theorem decode_error_iff (w : Word) : (∃ e, decode w = .error e) ↔
    w.toNat % 256 = 0 ∨ 6 ≤ w.toNat % 256 ∨
      (2 ≤ w.toNat % 256 ∧ w.toNat % 256 ≤ 5 ∧ w.toNat / 256 ≠ 0) := by
  simp only [decode, opcodeField_eq_iff, BitVec.toNat_ofNat]
  split_ifs with hqpix hqbuf hencode hdecode hdiff
  · simp [hqpix]
  · simp [requireUpperZero_error_iff, hqbuf]
  · simp [requireUpperZero_error_iff, hencode]
  · simp [requireUpperZero_error_iff, hdecode]
  · simp [requireUpperZero_error_iff, hdiff]
  · simp only [Except.error.injEq, exists_eq', true_iff]
    omega

end Sys2Proof

namespace Sys2Proof.Machine

/-- The engine's move on a word the decoder rejects is an error completion with ILLEGAL_CMD and ERR_INFO = 0. -/
theorem engineStep_illegal {s : State} {p : Pending} {e : DecodeError} (h : s.Enabled p)
    (he : decode p.cmd = .error e) : engineStep s = .next (s.failed 0x4#4 0#32) := by
  rw [engineStep_pending h, he]
  rfl

/-- Settles O5: a CMD write while idle is accepted whatever its word, and the listed words are those the decoder
rejects. -/
theorem illegalWordCompletes : Obligations.IllegalWordCompletes := by
  refine fun w => ⟨fun hillegal => ⟨fun s _ hidle => ?_, ?_⟩, fun hlegal => ?_⟩
  · exact ⟨s.accept w, by rw [hostWrite_cmd, offer_idle w hidle], rfl⟩
  · rintro s p hp rfl
    obtain ⟨e, he⟩ := (decode_error_iff p.cmd).mpr hillegal
    exact engineStep_illegal hp he
  · cases hd : decode w with
    | ok i => exact ⟨i, rfl⟩
    | error e => exact absurd ((decode_error_iff w).mp ⟨e, hd⟩) hlegal

end Sys2Proof.Machine
end

section
/-! PROOFS. The command a word selects, and the obligation about the class of a command word (40_command_cycle.md
R124). -/

namespace Sys2Proof

/-! ## The decoder inverts the encoder (30_encoding.md R90 to R95) -/

/-- QPIX's word as a number: red, green and blue above the opcode. -/
theorem encode_qpix_toNat (r g b : Byte) :
    (encode (.qpix r g b)).toNat = r.toNat * 2 ^ 24 + g.toNat * 2 ^ 16 + b.toNat * 2 ^ 8 + 1 := by
  have := g.isLt
  have := b.isLt
  change (r ++ g ++ b ++ 0x01#8).toNat = _
  simp only [BitVec.toNat_append, BitVec.toNat_ofNat]
  rw [← Nat.shiftLeft_add_eq_or_of_lt (by omega), ← Nat.shiftLeft_add_eq_or_of_lt (by omega),
    ← Nat.shiftLeft_add_eq_or_of_lt (by omega)]
  simp only [Nat.shiftLeft_eq]
  omega

/-- A word is QPIX's exactly when its low byte is the opcode and the other three are the channels. -/
theorem encode_qpix_eq_iff (w : Word) (r g b : Byte) : encode (.qpix r g b) = w ↔
    w.toNat % 256 = 1 ∧ r.toNat = w.toNat / 2 ^ 24 ∧ g.toNat = w.toNat / 2 ^ 16 % 256 ∧
      b.toNat = w.toNat / 2 ^ 8 % 256 := by
  have := r.isLt
  have := g.isLt
  have := b.isLt
  rw [← BitVec.toNat_inj, encode_qpix_toNat]
  omega

theorem decode_encode (i : Instr) : decode (encode i) = .ok i := by
  cases i with
  | qpix r g b => simp [decode, opcodeField_encode_qpix, p2Field_encode_qpix, p1Field_encode_qpix, p0Field_encode_qpix]
  | qbuf | encode | decode | diff => rfl

/-- A word that passes the check of a row without immediates is that row's word. -/
theorem encode_of_requireUpperZero {w : Word} {i j : Instr} (h : requireUpperZero w i = .ok j)
    (hop : opcodeField w = opcodeField (encode i)) (hupper : (encode i).extractLsb' 8 24 = 0#24) : encode j = w := by
  obtain ⟨rfl, hw⟩ := requireUpperZero_ok h
  exact word_ext hop.symm (hupper.trans hw.symm)

theorem encode_of_decode {w : Word} {i : Instr} (h : decode w = .ok i) : encode i = w := by
  unfold decode at h
  split_ifs at h with hqpix hqbuf hencode hdecode hdiff
  · obtain rfl : _ = i := by simpa using h
    refine (encode_qpix_eq_iff w _ _ _).mpr ⟨(opcodeField_eq_iff w _).mp hqpix, ?_⟩
    have hred : w.toNat / 2 ^ 24 % 2 ^ 8 = w.toNat / 2 ^ 24 := by have := w.isLt; omega
    simp only [p2Field, p1Field, p0Field, BitVec.extractLsb'_toNat, Nat.shiftRight_eq_div_pow, hred, and_self]
  · exact encode_of_requireUpperZero h hqbuf rfl
  · exact encode_of_requireUpperZero h hencode rfl
  · exact encode_of_requireUpperZero h hdecode rfl
  · exact encode_of_requireUpperZero h hdiff rfl

/-- A command is selected by its own word and by no other. -/
theorem decode_eq_ok_iff (w : Word) (i : Instr) : decode w = .ok i ↔ encode i = w :=
  ⟨encode_of_decode, fun h => h ▸ decode_encode i⟩

/-- Settles O2: a command's word is the one word that selects it, and the rejected words are the rest. -/
theorem decodeSelectsTableRow : Obligations.DecodeSelectsTableRow := by
  refine fun w => ⟨fun r g b => ?_, ?_, ?_, ?_, ?_, ?_⟩
  · rw [decode_eq_ok_iff, encode_qpix_eq_iff]
  · exact (decode_eq_ok_iff w .qbuf).trans eq_comm
  · exact (decode_eq_ok_iff w .encode).trans eq_comm
  · exact (decode_eq_ok_iff w .decode).trans eq_comm
  · exact (decode_eq_ok_iff w .diff).trans eq_comm
  · rw [decode_error_iff]
    simp only [← BitVec.toNat_inj, BitVec.toNat_ofNat]
    omega

end Sys2Proof
end

section
/-! PROOFS. What an engine step leaves unchanged, what it does not read, and the obligations about acceptance and the two
completions (40_command_cycle.md R120 to R122, R131 to R138). -/

namespace Sys2Proof.Machine

/-! ## Acceptance -/

/-- Settles O17: while idle a CMD write is an acceptance. -/
theorem commandIsAccepted : Obligations.CommandIsAccepted := by
  intro s w _ hidle
  exact ⟨s.accept w, by rw [hostWrite_cmd, offer_idle w hidle], rfl, rfl⟩

/-! ## What both completions leave unchanged (R131, R132) -/

theorem exec_keeps_ops_ie {i : Instr} {s t : State} (h : exec i s = .next t) : t.ops = s.ops ∧ t.ie = s.ie := by
  obtain ⟨p, -, ⟨e, -, rfl⟩ | hw⟩ := exec_next h
  · exact ⟨rfl, rfl⟩
  · obtain ⟨r, m, rfl⟩ := hw.ok
    exact ⟨rfl, rfl⟩

theorem engineStep_keeps_ops_ie {s t : State} (h : engineStep s = .next t) : t.ops = s.ops ∧ t.ie = s.ie := by
  obtain ⟨-, -, ⟨e, rfl⟩ | ⟨r, m, rfl⟩⟩ := engineStep_next h
  · exact ⟨rfl, rfl⟩
  · exact ⟨rfl, rfl⟩

/-- Settles O53: a command and the engine's move end in one of the two completions, and neither writes these. -/
theorem commandsKeepOperandsAndCtrl : Obligations.CommandsKeepOperandsAndCtrl :=
  ⟨fun _ _ _ => exec_keeps_ops_ie, fun _ _ => engineStep_keeps_ops_ie⟩

/-- Settles O51: the error completion is `State.failed`, and no error has the code of success. -/
theorem completionIsAllOrNothing : Obligations.CompletionIsAllOrNothing := by
  intro s t h
  obtain ⟨-, -, ⟨e, rfl⟩ | ⟨r, m, rfl⟩⟩ := engineStep_next h
  · exact ⟨fun _ => rfl, fun h0 => absurd h0 (code_ne_zero e.name)⟩
  · exact ⟨fun hne => absurd rfl hne, fun _ => rfl⟩

/-! ## What the engine's move does not read -/

/-- `g` changes only what a command neither reads nor writes. -/
structure EngineBlind (g : State → State) : Prop where
  fault : ∀ s, (g s).fault = s.fault
  pending : ∀ s, (g s).pending = s.pending
  bufBytes : ∀ s, (g s).bufBytes = s.bufBytes
  buf : ∀ s, (g s).buf = s.buf
  completeError : ∀ s e, (g s).completeError e = g (s.completeError e)
  completeOk : ∀ s r m, (g s).completeOk r m = g (s.completeOk r m)

theorem engineBlind_cmdovr (c : Bool) : EngineBlind fun s => { s with cmdovr := c } where
  fault _ := rfl
  pending _ := rfl
  bufBytes _ := rfl
  buf _ := rfl
  completeError _ _ := rfl
  completeOk _ _ _ := rfl

theorem engineBlind_ops (o : OperandRegs) : EngineBlind fun s => { s with ops := o } where
  fault _ := rfl
  pending _ := rfl
  bufBytes _ := rfl
  buf _ := rfl
  completeError _ _ := rfl
  completeOk _ _ _ := rfl

/-- A result with `g` applied to its next state. -/
def mapNext (g : State → State) : Result → Result
  | .next t => .next (g t)
  | .fault r => .fault r
  | .refused r => .refused r

section
variable {g : State → State} (hg : EngineBlind g)
include hg

theorem withPending_blind {f f' : Pending → Result} (s : State) (h : ∀ p, f' p = mapNext g (f p)) :
    (g s).withPending f' = mapNext g (s.withPending f) := by
  unfold State.withPending
  rw [hg.fault, hg.pending]
  cases s.fault with
  | some r => rfl
  | none => cases s.pending with
    | none => rfl
    | some p => exact h p

theorem runCommand_blind {α : Type} (srcs : List Operand) (dst : Operand) (compute : Memory → Option α)
    (content : α → Option CmdError) (required : α → Nat) (out : α → List Byte) (s : State) :
    runCommand srcs dst compute content required out (g s) =
      mapNext g (runCommand srcs dst compute content required out s) := by
  unfold runCommand
  rw [hg.bufBytes, hg.buf]
  simp only [hg.completeError, hg.completeOk]
  cases operandError s.bufBytes srcs dst with
  | some e => rfl
  | none => cases compute s.buf with
    | none => rfl
    | some a =>
      dsimp only
      cases content a with
      | some e => rfl
      | none => dsimp only; split <;> rfl

theorem exec_blind (i : Instr) (s : State) : exec i (g s) = mapNext g (exec i s) := by
  cases i with
  | qpix r g' b => exact withPending_blind hg s fun p => by simp only [hg.buf, hg.completeOk, mapNext]
  | qbuf | encode | decode => exact withPending_blind hg s fun p => runCommand_blind hg ..
  | diff =>
    refine withPending_blind hg s fun p => ?_
    split
    · exact runCommand_blind hg ..
    · simp only [hg.completeError, mapNext]

/-- The engine's move commutes with a change it is blind to. -/
theorem engineStep_blind (s : State) : engineStep (g s) = mapNext g (engineStep s) := by
  refine withPending_blind hg s fun p => ?_
  cases decode p.cmd with
  | ok i => exact exec_blind hg i s
  | error e => exact withPending_blind hg s fun p => by simp only [hg.completeError, mapNext]

theorem engineStep_blind_next {s t : State} (h : engineStep s = .next t) : engineStep (g s) = .next (g t) := by
  rw [engineStep_blind hg, h, mapNext]

theorem engineStep_blind_fault {s : State} {r : Fault} (h : engineStep s = .fault r) :
    engineStep (g s) = .fault r := by
  rw [engineStep_blind hg, h, mapNext]

end

/-- Settles O18: a dropped write changes CMDOVR alone, which the engine's move does not read. -/
theorem commandWhileBusyIsDropped : Obligations.CommandWhileBusyIsDropped := by
  refine fun s w hbusy => ⟨?_, fun t => ?_, fun r => ?_⟩
  · rw [hostWrite_cmd, offer_busy w hbusy]
  · exact engineStep_blind_next (engineBlind_cmdovr true)
  · exact engineStep_blind_fault (engineBlind_cmdovr true)

/-- Settles O54: acceptance copies the operand registers, no write but CMD's changes PENDING, and the engine's move
reads the copies only. -/
theorem commandsUseLatchedOperands : Obligations.CommandsUseLatchedOperands := by
  refine ⟨fun s t w hidle h => ?_, fun s t off v hlo _ h => ?_, fun s o => ⟨fun t => ?_, fun r => ?_⟩⟩
  · obtain rfl : s.accept w = t := by simpa [hostWrite_cmd, offer_idle w hidle] using h
    rfl
  · obtain ⟨slot, hslot, rfl⟩ := hostWrite_ok h
    obtain rfl := access_reg_slot hslot
    exact writeSlot_pending (.inl (by simp only [ne_eq, Slot.reg.injEq]; omega))
  · exact engineStep_blind_next (engineBlind_ops o)
  · exact engineStep_blind_fault (engineBlind_ops o)

end Sys2Proof.Machine
end

section
/-! PROOFS. Which operand check a command fails, what BUF has to hold for its reads, the output of a success, and the
obligations about the checks common to the commands (40_command_cycle.md R125 to R135). -/

namespace Sys2Proof.Machine

/-! ## The three operands (R125) -/

section
variable (o : OperandRegs) (e : Elem)

@[simp] theorem operandA_base : (o.operandA e).base = o.srcA.toNat := rfl
@[simp] theorem operandB_base : (o.operandB e).base = o.srcB.toNat := rfl
@[simp] theorem operandDst_base : (o.operandDst e).base = o.dst.toNat := rfl

@[simp] theorem operandA_elem : (o.operandA e).elem = e := rfl
@[simp] theorem operandB_elem : (o.operandB e).elem = e := rfl
@[simp] theorem operandDst_elem : (o.operandDst e).elem = e := rfl

@[simp] theorem operandA_bytes : (o.operandA e).bytes = e.size * o.lenA.toNat := Nat.mul_comm ..
@[simp] theorem operandB_bytes : (o.operandB e).bytes = e.size * o.lenB.toNat := Nat.mul_comm ..
@[simp] theorem operandDst_bytes : (o.operandDst e).bytes = e.size * o.dstCap.toNat := Nat.mul_comm ..

end

theorem aligned_eq_true {x : Operand} : x.aligned = true ↔ x.base % x.elem.align = 0 := by simp [Operand.aligned]

theorem aligned_eq_false {x : Operand} : x.aligned = false ↔ x.base % x.elem.align ≠ 0 := by simp [Operand.aligned]

/-- An RGB888 array may start anywhere (R99). -/
theorem rgb888_aligned (o : OperandRegs) : (o.operandA .rgb888).aligned = true := aligned_eq_true.mpr (Nat.mod_one _)

/-! ## The checks, one after the other (R126 to R128) -/

theorem overlap_eq_true {a1 s1 a2 s2 : Nat} : overlap a1 s1 a2 s2 = true ↔ ¬RegionsApart a1 s1 a2 s2 := by
  rw [← overlap_eq_false, Bool.not_eq_false]

theorem firstBad_cons_bad {name : ErrorName} {good : Operand → Bool} {o : Operand} {os : List Operand}
    (h : good o = false) : firstBad name good (o :: os) = some ⟨name, BitVec.ofNat 32 o.id⟩ := by
  simp [firstBad, h]

theorem firstBad_cons_good {name : ErrorName} {good : Operand → Bool} {o : Operand} {os : List Operand}
    (h : good o = true) : firstBad name good (o :: os) = firstBad name good os := by
  simp [firstBad, h]

section
variable {bytes : Nat} {srcs : List Operand} {dst : Operand} {e : CmdError}

/-- ALIGN comes first. -/
theorem operandError_of_misaligned (h : firstBad .align Operand.aligned (srcs ++ [dst]) = some e) :
    operandError bytes srcs dst = some e := by
  simp [operandError, h]

/-- OVERLAP is what is left to check once every base is aligned and every region in range. -/
theorem operandError_of_inRange (ha : ∀ o ∈ srcs ++ [dst], o.aligned = true)
    (hr : ∀ o ∈ srcs ++ [dst], inRange bytes o.base o.bytes = true) :
    operandError bytes srcs dst = firstBad .overlap (fun o => !overlap dst.base dst.bytes o.base o.bytes) srcs := by
  simp only [operandError, firstBad_eq_none.mpr ha, firstBad_eq_none.mpr hr]

/-- With every base aligned no check raises ALIGN. -/
theorem operandError_ne_align (h : operandError bytes srcs dst = some e)
    (ha : ∀ o ∈ srcs ++ [dst], o.aligned = true) : e.name.code ≠ 0x6#4 := by
  simp only [operandError, firstBad_eq_none.mpr ha] at h
  split at h
  · rename_i e' hrange
    obtain rfl : e' = e := by simpa using h
    obtain ⟨o, -, -, rfl⟩ := firstBad_eq_some hrange
    exact (by decide : ErrorName.code .range ≠ 0x6#4)
  · obtain ⟨o, -, -, rfl⟩ := firstBad_eq_some h
    exact (by decide : ErrorName.code .overlap ≠ 0x6#4)

end

/-- QBUF's checks, as R153 lists them. -/
theorem operandError_qbuf {bytes : Nat} {o : OperandRegs} :
    operandError bytes [o.operandA .rgb888] (o.operandDst .pixel) = none ↔ QbufReady bytes o := by
  simp [operandError_eq_none, aligned_eq_true, inRange_iff, overlap_eq_false, Elem.size, Elem.align, Nat.mod_one, and_assoc]

/-- ENCODE's checks, as R173 lists them. -/
theorem operandError_encode {bytes : Nat} {o : OperandRegs} :
    operandError bytes [o.operandA .pixel] (o.operandDst .runRecord) = none ↔ EncodeReady bytes o := by
  simp [operandError_eq_none, aligned_eq_true, inRange_iff, overlap_eq_false, Elem.size, Elem.align, and_assoc]

/-- DECODE's checks, as R176 lists them. -/
theorem operandError_decode {bytes : Nat} {o : OperandRegs} :
    operandError bytes [o.operandA .runRecord] (o.operandDst .pixel) = none ↔ DecodeReady bytes o := by
  simp [operandError_eq_none, aligned_eq_true, inRange_iff, overlap_eq_false, Elem.size, Elem.align, and_assoc]

/-- DIFF's checks, as R203 lists them; the lengths are compared before (R202). -/
theorem operandError_diff {bytes : Nat} {o : OperandRegs} :
    o.lenA = o.lenB ∧ operandError bytes [o.operandA .pixel, o.operandB .pixel] (o.operandDst .diffRecord) = none ↔
      DiffReady bytes o := by
  simp [operandError_eq_none, aligned_eq_true, inRange_iff, overlap_eq_false, Elem.size, Elem.align, and_assoc]

/-! ## The buffer commands where the engine step is enabled (R130) -/

section
variable {s : State} {p : Pending} (hp : s.Enabled p)
include hp

theorem exec_qbuf : exec .qbuf s = runCommand [p.op.operandA .rgb888] (p.op.operandDst .pixel)
    (fun m => quantizeArray m p.op.srcA.toNat p.op.lenA.toNat)
    (fun _ => none) List.length (fun px => px.flatMap pixelBytes) s :=
  withPending_enabled _ hp

theorem exec_encode : exec .encode s = runCommand [p.op.operandA .pixel] (p.op.operandDst .runRecord)
    (fun m => (readArray (readPixel m) 2 p.op.srcA.toNat p.op.lenA.toNat).map encodeRuns)
    (fun _ => none) List.length (fun runs => runs.flatMap runBytes) s :=
  withPending_enabled _ hp

theorem exec_decode : exec .decode s = runCommand [p.op.operandA .runRecord] (p.op.operandDst .pixel)
    (fun m => readArray (readRun m) 8 p.op.srcA.toNat p.op.lenA.toNat)
    invalidRunError totalCount (fun runs => (expandRuns runs).flatMap pixelBytes) s :=
  withPending_enabled _ hp

theorem exec_diff (hlen : p.op.lenA = p.op.lenB) :
    exec .diff s = runCommand [p.op.operandA .pixel, p.op.operandB .pixel] (p.op.operandDst .diffRecord)
      (fun m => diffArrays m p.op.srcA.toNat p.op.srcB.toNat p.op.lenA.toNat)
      (fun _ => none) List.length (fun ds => ds.flatMap diffBytes) s :=
  (withPending_enabled _ hp).trans (if_pos hlen)

theorem exec_diff_mismatch (hlen : p.op.lenA ≠ p.op.lenB) :
    exec .diff s = .next (s.completeError ⟨.lengthMismatch, 0#32⟩) :=
  (withPending_enabled _ hp).trans (if_neg hlen)

end

/-! ## Errors before the first read of BUF (R126 to R128, R202) -/

/-- The error a command raises before it reads BUF, from its operands alone. -/
def earlyError (bytes : Nat) (o : OperandRegs) : Instr → Option CmdError
  | .qpix _ _ _ => none
  | .qbuf => operandError bytes [o.operandA .rgb888] (o.operandDst .pixel)
  | .encode => operandError bytes [o.operandA .pixel] (o.operandDst .runRecord)
  | .decode => operandError bytes [o.operandA .runRecord] (o.operandDst .pixel)
  | .diff =>
    if o.lenA = o.lenB then operandError bytes [o.operandA .pixel, o.operandB .pixel] (o.operandDst .diffRecord)
    else some ⟨.lengthMismatch, 0#32⟩

theorem earlyError_diff {bytes : Nat} {o : OperandRegs} (hlen : o.lenA = o.lenB) :
    earlyError bytes o .diff = operandError bytes [o.operandA .pixel, o.operandB .pixel] (o.operandDst .diffRecord) :=
  if_pos hlen

/-- A command with an early error completes with it. -/
theorem exec_earlyError {i : Instr} {s : State} {p : Pending} {e : CmdError} (hp : s.Enabled p)
    (h : earlyError s.bufBytes p.op i = some e) : exec i s = .next (s.completeError e) := by
  cases i with
  | qpix r g b => cases h
  | qbuf => exact (exec_qbuf hp).trans (runCommand_operandError h)
  | encode => exact (exec_encode hp).trans (runCommand_operandError h)
  | decode => exact (exec_decode hp).trans (runCommand_operandError h)
  | diff =>
    by_cases hlen : p.op.lenA = p.op.lenB
    · exact (exec_diff hp hlen).trans (runCommand_operandError (by rwa [earlyError_diff hlen] at h))
    · obtain rfl : _ = e := by simpa [earlyError, hlen] using h
      exact exec_diff_mismatch hp hlen

/-- The codes of the outcomes that come after the reads: success, INVALID_RUN and CAPACITY. -/
abbrev LateCode (c : BitVec 4) : Prop := c = 0x0#4 ∨ c = 0x1#4 ∨ c = 0x8#4

theorem runCommand_next_code {α : Type} {srcs : List Operand} {dst : Operand} {compute : Memory → Option α}
    {content : α → Option CmdError} {required : α → Nat} {out : α → List Byte} {s t : State}
    (hcontent : ∀ a e, content a = some e → e.name = .invalidRun)
    (h : runCommand srcs dst compute content required out s = .next t) :
    (∃ e, operandError s.bufBytes srcs dst = some e ∧ t = s.completeError e) ∨ LateCode t.err := by
  rcases runCommand_next h with ⟨e, rfl, he | ⟨a, -, ha⟩ | ⟨n, rfl⟩⟩ | ⟨a, -, -, -, -, rfl⟩
  · exact .inl ⟨e, he, rfl⟩
  · exact .inr (.inr (.inl (by rw [State.completeError_err, hcontent a e ha]; rfl)))
  · exact .inr (.inr (.inr rfl))
  · exact .inr (.inl rfl)

theorem invalidRunError_name {runs : List Run} {e : CmdError} (h : invalidRunError runs = some e) :
    e.name = .invalidRun := by
  unfold invalidRunError at h
  split at h
  · cases h; rfl
  · cases h

/-- A command that answers a next state has its early error, or one of the outcomes after the reads. -/
theorem exec_next_code {i : Instr} {s t : State} {p : Pending} (hp : s.Enabled p) (h : exec i s = .next t) :
    (∃ e, earlyError s.bufBytes p.op i = some e ∧ t = s.completeError e) ∨ LateCode t.err := by
  cases i with
  | qpix r g b =>
    obtain rfl : s.completeOk _ s.buf = t := by simpa [exec, execQpix, withPending_enabled _ hp] using h
    exact .inr (.inl rfl)
  | qbuf => exact runCommand_next_code nofun ((exec_qbuf hp).symm.trans h)
  | encode => exact runCommand_next_code nofun ((exec_encode hp).symm.trans h)
  | decode => exact runCommand_next_code (fun _ _ => invalidRunError_name) ((exec_decode hp).symm.trans h)
  | diff =>
    by_cases hlen : p.op.lenA = p.op.lenB
    · rw [earlyError_diff hlen]
      exact runCommand_next_code nofun ((exec_diff hp hlen).symm.trans h)
    · obtain rfl : s.completeError _ = t := by simpa [exec_diff_mismatch hp hlen] using h
      exact .inl ⟨_, if_neg hlen, rfl⟩

/-! ## The obligations about ALIGN and OVERLAP -/

/-- Settles O46: ALIGN is the first check, and looks at the bases in id order. -/
theorem misalignedBaseRaisesAlign : Obligations.MisalignedBaseRaisesAlign := by
  intro s p hp
  have raise {i : Instr} {srcs : List Operand} {dst : Operand} {info : Word}
      (hi : earlyError s.bufBytes p.op i = operandError s.bufBytes srcs dst)
      (h : firstBad .align Operand.aligned (srcs ++ [dst]) = some ⟨.align, info⟩) :
      exec i s = .next (s.failed 0x6#4 info) :=
    exec_earlyError hp (hi.trans (operandError_of_misaligned h))
  refine ⟨fun hd => ?_, fun hd t h hcode => ?_, fun ha => ?_, fun ha hd => ?_, fun ha => ?_, fun ha hd => ?_,
    fun hlen => ⟨fun ha => ?_, fun ha hb => ?_, fun ha hb hd => ?_⟩⟩
  · exact raise rfl ((firstBad_cons_good (rgb888_aligned _)).trans (firstBad_cons_bad (aligned_eq_false.mpr hd)))
  · rcases exec_next_code hp h with ⟨e, he, rfl⟩ | hlate
    · exact operandError_ne_align he (by simp [aligned_eq_true, Elem.align, Nat.mod_one, hd]) hcode
    · simp [LateCode, hcode] at hlate
  · exact raise rfl (firstBad_cons_bad (aligned_eq_false.mpr ha))
  · exact raise rfl ((firstBad_cons_good (aligned_eq_true.mpr ha)).trans (firstBad_cons_bad (aligned_eq_false.mpr hd)))
  · exact raise rfl (firstBad_cons_bad (aligned_eq_false.mpr ha))
  · exact raise rfl ((firstBad_cons_good (aligned_eq_true.mpr ha)).trans (firstBad_cons_bad (aligned_eq_false.mpr hd)))
  · exact raise (earlyError_diff hlen) (firstBad_cons_bad (aligned_eq_false.mpr ha))
  · exact raise (earlyError_diff hlen) ((firstBad_cons_good (aligned_eq_true.mpr ha)).trans
      (firstBad_cons_bad (aligned_eq_false.mpr hb)))
  · exact raise (earlyError_diff hlen) ((firstBad_cons_good (aligned_eq_true.mpr ha)).trans
      ((firstBad_cons_good (aligned_eq_true.mpr hb)).trans (firstBad_cons_bad (aligned_eq_false.mpr hd))))

/-- OVERLAP of a command with one source, once its bases are aligned and its regions in range. -/
theorem exec_overlap_source (src dst : Elem) {i : Instr} {s : State} {p : Pending} (hp : s.Enabled p)
    (hi : earlyError s.bufBytes p.op i = operandError s.bufBytes [p.op.operandA src] (p.op.operandDst dst))
    (ha : p.op.srcA.toNat % src.align = 0) (hd : p.op.dst.toNat % dst.align = 0)
    (fa : RegionFits s.bufBytes p.op.srcA.toNat (src.size * p.op.lenA.toNat))
    (fd : RegionFits s.bufBytes p.op.dst.toNat (dst.size * p.op.dstCap.toNat))
    (hover : ¬RegionsApart p.op.dst.toNat (dst.size * p.op.dstCap.toNat) p.op.srcA.toNat
      (src.size * p.op.lenA.toNat)) : exec i s = .next (s.failed 0x7#4 1#32) := by
  refine exec_earlyError hp (e := ⟨.overlap, 1#32⟩) (hi.trans ((operandError_of_inRange ?_ ?_).trans
    (firstBad_cons_bad ?_)))
  · simp [aligned_eq_true, ha, hd]
  · simp [inRange_iff, fa, fd]
  · simpa [overlap_eq_true] using hover

/-- Settles O48: OVERLAP is checked last, and looks at the sources in id order. -/
theorem destinationOverSourceRaisesOverlap : Obligations.DestinationOverSourceRaisesOverlap := by
  refine fun s p hp => ⟨exec_overlap_source .rgb888 .pixel hp rfl (Nat.mod_one _),
    exec_overlap_source .pixel .runRecord hp rfl, exec_overlap_source .runRecord .pixel hp rfl, fun hlen ha hb hd fa fb fd => ?_⟩
  have hcheck : earlyError s.bufBytes p.op .diff =
      firstBad .overlap (fun o => !overlap (p.op.operandDst .diffRecord).base (p.op.operandDst .diffRecord).bytes
        o.base o.bytes) [p.op.operandA .pixel, p.op.operandB .pixel] := by
    refine (earlyError_diff hlen).trans (operandError_of_inRange ?_ ?_)
    · simp [aligned_eq_true, Elem.align, ha, hb, hd]
    · simp [inRange_iff, Elem.size, fa, fb, fd]
  refine ⟨fun hover => ?_, fun hapart hover => ?_, fun hapartA hapartB t h hcode => ?_⟩
  · refine exec_earlyError hp (e := ⟨.overlap, 1#32⟩) (hcheck.trans (firstBad_cons_bad ?_))
    simpa [overlap_eq_true, Elem.size] using hover
  · refine exec_earlyError hp (e := ⟨.overlap, 2#32⟩) (hcheck.trans ((firstBad_cons_good ?_).trans
      (firstBad_cons_bad ?_)))
    · simpa [overlap_eq_false, Elem.size] using hapart
    · simpa [overlap_eq_true, Elem.size] using hover
  · have hready : DiffReady s.bufBytes p.op := ⟨hlen, ha, hb, hd, fa, fb, fd, hapartA, hapartB⟩
    rcases exec_next_code hp h with ⟨e, he, -⟩ | hlate
    · rw [earlyError_diff hlen, (operandError_diff.mpr hready).2] at he
      cases he
    · simp [LateCode, hcode] at hlate

end Sys2Proof.Machine
end

section
/-! PROOFS. What BUF has to hold for a command's reads, how much output a command needs, the bytes a success writes, and
the obligations about them (40_command_cycle.md R129, R134, R135). -/

namespace Sys2Proof.Machine

/-! ## Reads of unwritten bytes (20_memory.md R63, R69) -/

theorem memRead_unwritten {m : Memory} {a k n : Nat} (hk : k < n) (h : m.get (a + k) = none) :
    memRead m a n = none := by
  induction n generalizing a k with
  | zero => cases hk
  | succ n ih =>
    rw [memRead_succ]
    cases k with
    | zero => rw [show m.get a = none from h]
    | succ k =>
      rw [ih (Nat.lt_of_succ_lt_succ hk) (by rwa [Nat.add_right_comm a 1 k])]
      cases m.get a <;> rfl

theorem readPixel_unwritten {m : Memory} {a j : Nat} (hj : j < 2) (h : m.get (a + j) = none) :
    readPixel m a = none := by
  simp [readPixel, memRead_unwritten hj h]

theorem readRgb_unwritten {m : Memory} {a j : Nat} (hj : j < 3) (h : m.get (a + j) = none) : readRgb m a = none := by
  have hbyte : memRead m (a + j) 1 = none := memRead_unwritten (k := 0) Nat.zero_lt_one h
  unfold readRgb
  split
  · rename_i hr hg hb
    obtain rfl | rfl | rfl : j = 0 ∨ j = 1 ∨ j = 2 := by omega
    · exact absurd (hr.symm.trans hbyte) nofun
    · exact absurd (hg.symm.trans hbyte) nofun
    · exact absurd (hb.symm.trans hbyte) nofun
  · rfl

/-- The six bytes of a run record that are read are VALUE's two and COUNT's four (R69). -/
theorem readRun_unwritten {m : Memory} {a j : Nat} (hj : j ∈ [0, 1, 4, 5, 6, 7]) (h : m.get (a + j) = none) :
    readRun m a = none := by
  have hfield : memRead m a 2 = none ∨ memRead m (a + 4) 4 = none := by
    obtain hlt | ⟨k, hk, rfl⟩ : j < 2 ∨ ∃ k, k < 4 ∧ j = 4 + k := by
      by_cases hlt : j < 2
      · exact .inl hlt
      · simp only [List.mem_cons, List.not_mem_nil, or_false] at hj
        exact .inr ⟨j - 4, by omega, by omega⟩
    · exact .inl (memRead_unwritten hlt h)
    · exact .inr (memRead_unwritten hk (by rwa [Nat.add_assoc]))
  unfold readRun
  split
  · rename_i hv hc
    rcases hfield with hn | hn
    · exact absurd (hv.symm.trans hn) nofun
    · exact absurd (hc.symm.trans hn) nofun
  · rfl

/-- An array is not read when one of its bytes is unwritten, where every byte of an element is read. -/
theorem readArray_unwritten {α : Type} {m : Memory} {read : Nat → Option α} {size base n k : Nat}
    (hread : ∀ a j, j < size → m.get (a + j) = none → read a = none) (hk : k < size * n)
    (h : m.get (base + k) = none) : readArray read size base n = none := by
  have hsize : 0 < size := Nat.pos_of_mul_pos_right (Nat.zero_lt_of_lt hk)
  refine readArray_eq_none.mpr ⟨k / size, Nat.div_lt_of_lt_mul hk, hread _ (k % size) (Nat.mod_lt _ hsize) ?_⟩
  rwa [Nat.add_assoc, Nat.div_add_mod]

theorem readPixels_unwritten {m : Memory} {base n k : Nat} (hk : k < 2 * n) (h : m.get (base + k) = none) :
    readArray (readPixel m) 2 base n = none :=
  readArray_unwritten (fun _ _ => readPixel_unwritten) hk h

theorem quantizeArray_unwritten {m : Memory} {base n k : Nat} (hk : k < 3 * n) (h : m.get (base + k) = none) :
    quantizeArray m base n = none := by
  simp [quantizeArray, readArray_unwritten (fun _ _ => readRgb_unwritten) hk h]

theorem diffArrays_unwritten {m : Memory} {baseA baseB n k : Nat} (hk : k < 2 * n)
    (h : m.get (baseA + k) = none ∨ m.get (baseB + k) = none) : diffArrays m baseA baseB n = none := by
  unfold diffArrays
  split
  · rename_i ha hb
    rcases h with h | h
    · exact absurd (ha.symm.trans (readPixels_unwritten hk h)) nofun
    · exact absurd (hb.symm.trans (readPixels_unwritten hk h)) nofun
  · rfl

/-! ## What a command without an early error reads (R135) -/

/-- An engine step that ends in an error raised before the reads ends in it whatever BUF holds. -/
theorem engineStep_early_buf {s : State} (m : Memory) {code : BitVec 4} {info : Word}
    (hcode : ¬LateCode code) (h : engineStep s = .next (s.failed code info)) :
    engineStep { s with buf := m } = .next (({ s with buf := m } : State).failed code info) := by
  obtain ⟨p, hp, -⟩ := withPending_next h
  have hp' : ({ s with buf := m } : State).Enabled p := hp
  rw [engineStep_pending hp] at h
  rw [engineStep_pending hp']
  cases hd : decode p.cmd with
  | error e =>
    obtain ⟨rfl, rfl⟩ : 0x4#4 = code ∧ 0#32 = info := by
      simpa [hd, State.completeError, State.failed, ErrorName.code] using h
    rfl
  | ok i =>
    rcases exec_next_code hp (by simpa [hd] using h) with ⟨e, he, heq⟩ | hlate
    · obtain ⟨rfl, rfl⟩ : code = e.name.code ∧ info = e.info :=
        ⟨congrArg State.err heq, congrArg State.errInfo heq⟩
      exact exec_earlyError hp' he
    · exact absurd hlate hcode

/-- Settles O50: one unwritten byte makes its element's read fail, so the array's and the command's; the errors of
R124 to R128 come from the word and the operands alone. -/
theorem unwrittenSourceByteFaults : Obligations.UnwrittenSourceByteFaults := by
  refine ⟨fun s p hp => ⟨fun hready k hk h => ?_, fun hready k hk h => ?_, fun hready k j hk hj h => ?_,
    fun hready k hk h => ?_⟩, fun s m code info hcode => engineStep_early_buf m ?_⟩
  · rw [exec_qbuf hp]
    exact runCommand_unwritten (operandError_qbuf.mpr hready) (quantizeArray_unwritten hk h)
  · rw [exec_encode hp]
    exact runCommand_unwritten (operandError_encode.mpr hready) (by simp [readPixels_unwritten hk h])
  · rw [exec_decode hp]
    exact runCommand_unwritten (operandError_decode.mpr hready)
      (readArray_eq_none.mpr ⟨k, hk, readRun_unwritten hj h⟩)
  · obtain ⟨hlen, hchecks⟩ := operandError_diff.mpr hready
    rw [exec_diff hp hlen]
    exact runCommand_unwritten hchecks (diffArrays_unwritten hk h)
  · rintro (rfl | rfl | rfl) <;> exact absurd hcode (by decide)

/-! ## How much output a command needs (R129) -/

theorem completeError_capacity (s : State) {n : Nat} (h : n < 2 ^ 32) :
    s.completeError (capacityError n) = s.failed 0x8#4 (BitVec.ofNat 32 n) := by
  have hmin : min n 0xFFFFFFFF = n := by omega
  simp [State.completeError, State.failed, capacityError, ErrorName.code, hmin]

theorem encodeFrom_length_le (cur : Pixel) (cnt : Nat) (seq : List Pixel) :
    (encodeFrom cur cnt seq).length ≤ seq.length + 1 := by
  induction seq generalizing cur cnt with
  | nil => simp [encodeFrom]
  | cons x xs ih =>
    rw [encodeFrom]
    split
    · exact (ih cur (cnt + 1)).trans (by simp)
    · simpa using ih x 1

/-- A sequence has no more runs than elements. -/
theorem encodeRuns_length_le (seq : List Pixel) : (encodeRuns seq).length ≤ seq.length := by
  cases seq with
  | nil => exact Nat.le_refl 0
  | cons x xs => exact encodeFrom_length_le x 1 xs

theorem diffFrom_length_le (i : Nat) (a b : List Pixel) : (diffFrom i a b).length ≤ a.length := by
  induction a generalizing i b with
  | nil => simp [diffFrom]
  | cons x xs ih =>
    cases b with
    | nil => simp [diffFrom]
    | cons y ys =>
      have := ih (i + 1) ys
      rw [diffFrom]
      split <;> simp only [List.length_cons] <;> omega

theorem diff_eq_ok {a b : List Pixel} {ds : List DiffRecord} (h : diff a b = .ok ds) : diffFrom 0 a b = ds := by
  unfold diff at h
  split at h
  · simpa using h
  · cases h

theorem totalCount_eq_sum (runs : List Run) : totalCount runs = (runs.map Run.count).sum := by
  induction runs with
  | nil => rfl
  | cons r rs ih => simp [totalCount, ih]

theorem firstZeroFrom_eq_none {runs : List Run} (k : Nat) (h : ∀ r ∈ runs, 1 ≤ r.count) :
    firstZeroFrom k runs = none := by
  induction runs generalizing k with
  | nil => rfl
  | cons r rs ih =>
    have hr : r.count ≠ 0 := Nat.one_le_iff_ne_zero.mp (h r List.mem_cons_self)
    simp [firstZeroFrom, hr, ih (k + 1) fun x hx => h x (List.mem_cons_of_mem r hx)]

theorem invalidRunError_eq_none {runs : List Run} (h : ∀ r ∈ runs, 1 ≤ r.count) : invalidRunError runs = none := by
  simp [invalidRunError, firstZeroFrom_eq_none 0 h]

theorem quantizeArray_eq_some {m : Memory} {base n : Nat} {px : List (Byte × Byte × Byte)} (hlen : px.length = n)
    (h : HoldsRgb m base px) : quantizeArray m base n = some (px.map fun c => quantize c.1 c.2.1 c.2.2) := by
  simp [quantizeArray, readRgbs_eq_some.mpr ⟨hlen, h⟩]

theorem diffArrays_eq_some {m : Memory} {baseA baseB n : Nat} {a b : List Pixel} (hlenA : a.length = n)
    (hlenB : b.length = n) (ha : HoldsPixels m baseA a) (hb : HoldsPixels m baseB b) :
    diffArrays m baseA baseB n = some (diffFrom 0 a b) := by
  simp [diffArrays, readPixels_eq_some.mpr ⟨hlenA, ha⟩, readPixels_eq_some.mpr ⟨hlenB, hb⟩]

/-- Settles O49: the number CAPACITY names is that of the output elements, which fits 32 bits but for DECODE. -/
theorem outputBeyondCapacityRaisesCapacity : Obligations.OutputBeyondCapacityRaisesCapacity := by
  refine fun s p hp => ⟨fun px hready hlen hpx hcap => ?_, fun seq hready hlen hseq hcap => ?_,
    fun runs hready hlen hruns hpos hcap => ?_, fun a b ds hready hlenA hlenB ha hb hds hcap => ?_⟩
  · rw [exec_qbuf hp, runCommand_overCapacity (operandError_qbuf.mpr hready) (quantizeArray_eq_some hlen hpx) rfl
      (by rw [List.length_map, hlen]; exact hcap), List.length_map, hlen, completeError_capacity s p.op.lenA.isLt,
      BitVec.ofNat_toNat, BitVec.setWidth_eq]
  · have hfit : (encodeRuns seq).length < 2 ^ 32 :=
      (encodeRuns_length_le seq).trans_lt (hlen ▸ p.op.lenA.isLt)
    rw [exec_encode hp, runCommand_overCapacity (operandError_encode.mpr hready)
      (by rw [readPixels_eq_some.mpr ⟨hlen, hseq⟩, Option.map_some]) rfl hcap, completeError_capacity s hfit]
  · rw [← totalCount_eq_sum] at hcap ⊢
    rw [exec_decode hp, runCommand_overCapacity (operandError_decode.mpr hready)
      (readRuns_eq_some.mpr ⟨hlen, hruns⟩) (invalidRunError_eq_none hpos) hcap]
    rfl
  · obtain rfl := diff_eq_ok hds
    obtain ⟨hlen, hchecks⟩ := operandError_diff.mpr hready
    have hfit : (diffFrom 0 a b).length < 2 ^ 32 := (diffFrom_length_le 0 a b).trans_lt (hlenA ▸ p.op.lenA.isLt)
    rw [exec_diff hp hlen, runCommand_overCapacity hchecks
      (diffArrays_eq_some hlenA (hlenB.trans (congrArg BitVec.toNat hlen.symm)) ha hb) rfl hcap,
      completeError_capacity s hfit]

/-! ## The bytes a success writes (R134) -/

theorem expandRuns_length (runs : List Run) : (expandRuns runs).length = totalCount runs := by
  simp [expandRuns, totalCount_eq_sum, List.length_flatMap]

/-- A success of a buffer command writes RESULT elements at DST and nothing else. -/
theorem runCommand_writes {α : Type} {srcs : List Operand} {o : OperandRegs} {el : Elem}
    {compute : Memory → Option α} {content : α → Option CmdError} {required : α → Nat} {out : α → List Byte}
    {s t : State} {size : Nat} (hout : ∀ a, (out a).length = size * required a)
    (h : runCommand srcs (o.operandDst el) compute content required out s = .next t) (herr : t.err = 0x0#4) :
    SameOutside s.buf t.buf o.dst.toNat (size * t.result.toNat) ∧
      ∀ k, k < size * t.result.toNat → t.buf.get (o.dst.toNat + k) ≠ none := by
  rcases runCommand_next h with ⟨e, rfl, -⟩ | ⟨a, -, -, -, hcap, rfl⟩
  · exact absurd herr (code_ne_zero e.name)
  · have hfit : required a < 2 ^ 32 := hcap.trans_lt o.dstCap.isLt
    have hlen : size * (BitVec.ofNat 32 (required a)).toNat = (out a).length := by
      rw [BitVec.toNat_ofNat, Nat.mod_eq_of_lt hfit, hout]
    rw [State.completeOk_result, State.completeOk_buf, operandDst_base, hlen]
    refine ⟨fun x hx => get_writeBytes_outside hx, fun k hk => ?_⟩
    rw [get_writeBytes_inside hk]
    exact nofun

/-- Settles O52: a buffer command's output has the size of its elements, and QPIX has none. -/
theorem successWritesExactlyItsOutput : Obligations.SuccessWritesExactlyItsOutput := by
  intro i s t p hp h herr
  cases i with
  | qpix r g b =>
    obtain rfl : s.completeOk _ s.buf = t := by simpa [exec, execQpix, withPending_enabled _ hp] using h
    exact ⟨fun _ _ => rfl, fun k hk => by simp [outputSize] at hk⟩
  | qbuf => exact runCommand_writes (flatMap_length pixelBytes_length) ((exec_qbuf hp).symm.trans h) herr
  | encode => exact runCommand_writes (flatMap_length runBytes_length) ((exec_encode hp).symm.trans h) herr
  | decode =>
    refine runCommand_writes (fun runs => ?_) ((exec_decode hp).symm.trans h) herr
    rw [flatMap_length pixelBytes_length, expandRuns_length]
    rfl
  | diff =>
    by_cases hlen : p.op.lenA = p.op.lenB
    · exact runCommand_writes (flatMap_length diffBytes_length) ((exec_diff hp hlen).symm.trans h) herr
    · obtain rfl : s.completeError _ = t := by simpa [exec_diff_mismatch hp hlen] using h
      exact absurd herr (code_ne_zero .lengthMismatch)

end Sys2Proof.Machine
end

section
/-! PROOFS. The fields of Q, and the obligations about Q and QPIX (41_quantizer.md R150 to R152). -/

namespace Sys2Proof.Machine

/-! ## The quantizer (R150, R151) -/

/-- The shifted channels of R150 do not overlap: blue fills bits 4:0, green bits 10:5 and red bits 15:11. -/
theorem quantize_eq_append (r g b : Byte) :
    quantize r g b = (r.extractLsb' 3 5 ++ g.extractLsb' 2 6 ++ b.extractLsb' 3 5 : BitVec 16) := by
  refine BitVec.eq_of_getLsbD_eq fun i hi => ?_
  change _ = @BitVec.getLsbD (5 + 6 + 5) (r.extractLsb' 3 5 ++ g.extractLsb' 2 6 ++ b.extractLsb' 3 5) i
  simp only [quantize, BitVec.getLsbD_or, BitVec.getLsbD_shiftLeft, BitVec.getLsbD_setWidth,
    BitVec.getLsbD_ushiftRight, BitVec.getLsbD_append, BitVec.getLsbD_extractLsb', hi, Nat.sub_sub]
  by_cases hblue : i < 5
  · simp [hblue, show i < 11 by omega]
  · have hb : b.getLsbD (3 + i) = false := BitVec.getLsbD_of_ge b _ (by omega)
    by_cases hgreen : i < 11
    · simp [hblue, hgreen, hb, show i - 5 < 16 by omega, show i - 5 < 6 by omega]
    · have hg : g.getLsbD (2 + (i - 5)) = false := BitVec.getLsbD_of_ge g _ (by omega)
      simp [hblue, hgreen, hb, hg, show i - 11 < 16 by omega, show ¬ i - 5 < 6 by omega, show i - 11 < 5 by omega]

theorem quantize_red (r g b : Byte) : (quantize r g b).extractLsb' 11 5 = r.extractLsb' 3 5 := by
  rw [quantize_eq_append]
  exact (BitVec.extractLsb'_append_eq_of_le (by decide)).trans BitVec.extractLsb'_append_eq_left

theorem quantize_green (r g b : Byte) : (quantize r g b).extractLsb' 5 6 = g.extractLsb' 2 6 := by
  rw [quantize_eq_append]
  exact (BitVec.extractLsb'_append_eq_of_le (by decide)).trans BitVec.extractLsb'_append_eq_right

theorem quantize_blue (r g b : Byte) : (quantize r g b).extractLsb' 0 5 = b.extractLsb' 3 5 := by
  rw [quantize_eq_append]
  exact BitVec.extractLsb'_append_eq_right

/-- Settles O31: Q is the concatenation of its three fields, so it is determined by them. -/
theorem quantizerProperties : Obligations.QuantizerProperties := by
  refine fun r g b => ⟨quantize_eq_append r g b, ?_, quantize_red r g b, quantize_green r g b, quantize_blue r g b,
    fun r' g' b' hr hg hb => ?_⟩
  · exact Nat.le_of_lt_succ (quantize r g b).isLt
  · rw [quantize_eq_append, quantize_eq_append, hr, hg, hb]

/-! ## QPIX (R152) -/

theorem exec_qpix {s : State} {p : Pending} (hp : s.Enabled p) (r g b : Byte) :
    exec (.qpix r g b) s = .next (s.completeOk ((quantize r g b).setWidth 32) s.buf) :=
  withPending_enabled _ hp

theorem engineStep_decoded {s : State} {p : Pending} {i : Instr} (hp : s.Enabled p) (hi : decode p.cmd = .ok i) :
    engineStep s = exec i s := by
  rw [engineStep_pending hp, hi]

/-- A pixel stands in a register below 16 zero bits (R152: zext_32). -/
theorem setWidth_pixel (x : Pixel) : x.setWidth 32 = (0#16 ++ x : BitVec 32) :=
  BitVec.setWidth_eq_append (by decide)

/-- Settles O30: QPIX's success has Q of the word's channels as RESULT, and its word selects it. -/
theorem qpixQuantizes : Obligations.QpixQuantizes := by
  refine fun s p r g b hp => ⟨?_, fun hcmd => engineStep_decoded hp ?_⟩
  · rw [exec_qpix hp, setWidth_pixel, quantize_eq_append]
    rfl
  · exact (decode_eq_ok_iff p.cmd (.qpix r g b)).mpr hcmd.symm

end Sys2Proof.Machine
end

section
/-! PROOFS. What the scan of ENCODE answers, that expanding and scanning undo each other, the run INVALID_RUN names, the
bytes of a run record DECODE never reads, and the obligations about the run-length codec (42_rle_codec.md R170 to
R179). -/

namespace Sys2Proof.Machine

/-! ## Expanding runs (R174) -/

theorem expandRuns_cons (r : Run) (rs : List Run) :
    expandRuns (r :: rs) = List.replicate r.count r.value ++ expandRuns rs := rfl

/-- The expansion of a run with a count of at least 1 starts with its value. -/
theorem expandRuns_cons_of_pos {r : Run} (rs : List Run) (hr : 1 ≤ r.count) :
    expandRuns (r :: rs) = r.value :: (List.replicate (r.count - 1) r.value ++ expandRuns rs) := by
  rw [expandRuns_cons, ← List.cons_append, ← List.replicate_succ, Nat.sub_add_cancel hr]

theorem decodeRuns_eq_ok {runs : List Run} (h : ∀ r ∈ runs, 1 ≤ r.count) : decodeRuns runs = .ok (expandRuns runs) := by
  simp [decodeRuns, invalidRunError_eq_none h]

/-! ## The scan (R170, R171) -/

/-- The scan's first run has the current value. -/
theorem encodeFrom_eq_cons (cur : Pixel) (cnt : Nat) (seq : List Pixel) :
    ∃ n rest, encodeFrom cur cnt seq = ⟨cur, n⟩ :: rest := by
  induction seq generalizing cnt with
  | nil => exact ⟨cnt, [], rfl⟩
  | cons x xs ih =>
    rw [encodeFrom]
    split
    · exact ih (cnt + 1)
    · exact ⟨cnt, _, rfl⟩

/-- Expanding the scan's runs gives the elements already counted, then those still to be scanned. -/
theorem expandRuns_encodeFrom (cur : Pixel) (cnt : Nat) (seq : List Pixel) :
    expandRuns (encodeFrom cur cnt seq) = List.replicate cnt cur ++ seq := by
  induction seq generalizing cur cnt with
  | nil => simp [encodeFrom, expandRuns]
  | cons x xs ih =>
    rw [encodeFrom]
    split
    · rename_i hx
      rw [ih, hx, List.replicate_succ', List.append_assoc, List.singleton_append]
    · rw [expandRuns_cons, ih, List.replicate_one, List.singleton_append]

theorem encodeFrom_count_pos {cur : Pixel} {cnt : Nat} (seq : List Pixel) (hcnt : 1 ≤ cnt) :
    ∀ r ∈ encodeFrom cur cnt seq, 1 ≤ r.count := by
  induction seq generalizing cur cnt with
  | nil => simpa [encodeFrom] using hcnt
  | cons x xs ih =>
    rw [encodeFrom]
    split
    · exact ih (Nat.le_add_left 1 cnt)
    · exact List.forall_mem_cons.mpr ⟨hcnt, ih (Nat.le_refl 1)⟩

/-- Maximality read along the list, for inductions over the runs. -/
theorem maximalRuns_iff_isChain {runs : List Run} :
    MaximalRuns runs ↔ runs.IsChain fun r q => r.value ≠ q.value :=
  (List.isChain_iff_getElem (R := fun r q : Run => r.value ≠ q.value)).symm

theorem encodeFrom_isChain (cur : Pixel) (cnt : Nat) (seq : List Pixel) :
    (encodeFrom cur cnt seq).IsChain fun r q => r.value ≠ q.value := by
  induction seq generalizing cur cnt with
  | nil => exact List.isChain_singleton _
  | cons x xs ih =>
    rw [encodeFrom]
    split
    · exact ih cur (cnt + 1)
    · rename_i hne
      have htail := ih x 1
      obtain ⟨n, rest, hscan⟩ := encodeFrom_eq_cons x 1 xs
      rw [hscan] at htail ⊢
      exact List.isChain_cons_cons.mpr ⟨Ne.symm hne, htail⟩

theorem encodeRuns_count_pos (seq : List Pixel) : ∀ r ∈ encodeRuns seq, 1 ≤ r.count := by
  cases seq with
  | nil => exact nofun
  | cons x xs => exact encodeFrom_count_pos xs (Nat.le_refl 1)

theorem expandRuns_encodeRuns (seq : List Pixel) : expandRuns (encodeRuns seq) = seq := by
  cases seq with
  | nil => rfl
  | cons x xs => exact expandRuns_encodeFrom x 1 xs

theorem encodeRuns_maximal (seq : List Pixel) : MaximalRuns (encodeRuns seq) := by
  cases seq with
  | nil => exact nofun
  | cons x xs => exact maximalRuns_iff_isChain.mpr (encodeFrom_isChain x 1 xs)

theorem encodeRuns_counts_sum (seq : List Pixel) : ((encodeRuns seq).map Run.count).sum = seq.length := by
  rw [← totalCount_eq_sum, ← expandRuns_length, expandRuns_encodeRuns]

/-- Encode's counts fit the COUNT field when the sequence's length fits 32 bits (R178). -/
theorem encodeRuns_count_lt {seq : List Pixel} {bound : Nat} (h : seq.length < bound) :
    ∀ r ∈ encodeRuns seq, r.count < bound := by
  intro r hr
  have hle : r.count ≤ ((encodeRuns seq).map Run.count).sum := List.le_sum_of_mem (List.mem_map_of_mem hr)
  rw [encodeRuns_counts_sum] at hle
  exact hle.trans_lt h

/-! ## Scanning an expansion (R177) -/

/-- Elements equal to the current value only count. -/
theorem encodeFrom_replicate_append (cur : Pixel) (cnt k : Nat) (seq : List Pixel) :
    encodeFrom cur cnt (List.replicate k cur ++ seq) = encodeFrom cur (cnt + k) seq := by
  induction k generalizing cnt with
  | zero => rfl
  | succ k ih =>
    rw [List.replicate_succ, List.cons_append, encodeFrom, if_pos rfl, ih, Nat.add_assoc, Nat.add_comm 1 k]

/-- A value other than the current one ends the run, and the scan starts anew with it. -/
theorem encodeFrom_cons_of_ne {x cur : Pixel} (cnt : Nat) (xs : List Pixel) (h : x ≠ cur) :
    encodeFrom cur cnt (x :: xs) = ⟨cur, cnt⟩ :: encodeRuns (x :: xs) := if_neg h

/-- The first run of an expansion is scanned whole, and becomes the scan's current value and count. -/
theorem encodeRuns_expandRuns_cons {r : Run} (rs : List Run) (hr : 1 ≤ r.count) :
    encodeRuns (expandRuns (r :: rs)) = encodeFrom r.value r.count (expandRuns rs) := by
  rw [expandRuns_cons_of_pos rs hr, encodeRuns, encodeFrom_replicate_append, Nat.add_sub_cancel' hr]

/-- With a maximal sequence of runs the scan closes each run exactly where the expansion of the next begins. -/
theorem encodeFrom_expandRuns {r : Run} {rs : List Run} (hpos : ∀ q ∈ rs, 1 ≤ q.count)
    (hchain : (r :: rs).IsChain fun r q => r.value ≠ q.value) :
    encodeFrom r.value r.count (expandRuns rs) = r :: rs := by
  induction rs generalizing r with
  | nil => rfl
  | cons q qs ih =>
    obtain ⟨hq, hqs⟩ := List.forall_mem_cons.mp hpos
    obtain ⟨hne, hrest⟩ := List.isChain_cons_cons.mp hchain
    calc encodeFrom r.value r.count (expandRuns (q :: qs))
        = r :: encodeRuns (expandRuns (q :: qs)) := by
          rw [expandRuns_cons_of_pos qs hq, encodeFrom_cons_of_ne r.count _ hne.symm]
      _ = r :: encodeFrom q.value q.count (expandRuns qs) := by rw [encodeRuns_expandRuns_cons qs hq]
      _ = r :: q :: qs := by rw [ih hqs hrest]

theorem encodeRuns_expandRuns {runs : List Run} (hpos : ∀ r ∈ runs, 1 ≤ r.count) (hmax : MaximalRuns runs) :
    encodeRuns (expandRuns runs) = runs := by
  cases runs with
  | nil => rfl
  | cons r rs =>
    obtain ⟨hr, hrs⟩ := List.forall_mem_cons.mp hpos
    rw [encodeRuns_expandRuns_cons rs hr, encodeFrom_expandRuns hrs (maximalRuns_iff_isChain.mp hmax)]

/-! ## The first zero count (R175) -/

/-- The scan for a zero count, started at index `start`, names the least one. -/
theorem firstZeroFrom_eq_some {runs : List Run} {k : Nat} (start : Nat) (hk : k < runs.length)
    (hzero : runs[k].count = 0) (hleast : ∀ j, ∀ h : j < k, runs[j].count ≠ 0) :
    firstZeroFrom start runs = some (start + k) := by
  induction runs generalizing k start with
  | nil => cases hk
  | cons r rs ih =>
    cases k with
    | zero => exact if_pos hzero
    | succ k =>
      have hr : r.count ≠ 0 := hleast 0 (Nat.succ_pos k)
      rw [firstZeroFrom, if_neg hr, ih (start + 1) (Nat.lt_of_succ_lt_succ hk) hzero
        fun j hj => hleast (j + 1) (Nat.succ_lt_succ hj), Nat.add_right_comm, Nat.add_assoc]

theorem invalidRunError_eq_some {runs : List Run} {k : Nat} (hk : k < runs.length) (hzero : runs[k].count = 0)
    (hleast : ∀ j, ∀ h : j < k, runs[j].count ≠ 0) :
    invalidRunError runs = some ⟨.invalidRun, BitVec.ofNat 32 k⟩ := by
  rw [invalidRunError, firstZeroFrom_eq_some 0 hk hzero hleast, Nat.zero_add]

/-! ## What a buffer command's step reads of BUF (R130, R135) -/

/-- A buffer command's step depends on BUF through what it computes from the sources alone: over every BUF with the same
`compute`, it ends in the same error, the same fault, or a success that writes the same bytes. -/
theorem runCommand_of_same_compute {α : Type} (srcs : List Operand) (dst : Operand) (compute : Memory → Option α)
    (content : α → Option CmdError) (required : α → Nat) (out : α → List Byte) (s : State) :
    (∃ e, ∀ m, compute m = compute s.buf → runCommand srcs dst compute content required out { s with buf := m } =
      .next (({ s with buf := m } : State).completeError e)) ∨
    (∀ m, compute m = compute s.buf → runCommand srcs dst compute content required out { s with buf := m } =
      .fault .uninitRead) ∨
    ∃ r bs, ∀ m, compute m = compute s.buf → runCommand srcs dst compute content required out { s with buf := m } =
      .next (({ s with buf := m } : State).completeOk r (m.writeBytes dst.base bs)) := by
  cases hop : operandError s.bufBytes srcs dst with
  | some e => exact .inl ⟨e, fun m _ => runCommand_operandError hop⟩
  | none =>
    cases hc : compute s.buf with
    | none => exact .inr (.inl fun m hm => runCommand_unwritten hop hm)
    | some a =>
      cases he : content a with
      | some e => exact .inl ⟨e, fun m hm => runCommand_contentError hop hm he⟩
      | none =>
        by_cases hcap : dst.count < required a
        · exact .inl ⟨_, fun m hm => runCommand_overCapacity hop hm he hcap⟩
        · exact .inr (.inr ⟨_, out a, fun m hm => runCommand_ok hop hm he (Nat.le_of_not_lt hcap)⟩)

/-! ## The RSVD bytes (R102, R179) -/

/-- `a` is no RSVD byte of the `n` run records at `base`. -/
abbrev OutsideRsvd (base n a : Nat) : Prop := ∀ k, k < n → a ≠ base + 8 * k + 2 ∧ a ≠ base + 8 * k + 3

theorem readRun_congr {m m' : Memory} {a : Nat} (hvalue : ∀ x, a ≤ x → x < a + 2 → m'.get x = m.get x)
    (hcount : ∀ x, a + 4 ≤ x → x < a + 4 + 4 → m'.get x = m.get x) : readRun m' a = readRun m a := by
  rw [readRun, readRun, memRead_congr hvalue, memRead_congr hcount]

/-- Two BUFs that agree outside the RSVD bytes hold the same runs, for no read reaches an RSVD byte. -/
theorem readRuns_congr {m m' : Memory} {base n : Nat} (h : ∀ a, OutsideRsvd base n a → m'.get a = m.get a) :
    readArray (readRun m') 8 base n = readArray (readRun m) 8 base n :=
  readArray_congr fun i _ => readRun_congr (fun x _ _ => h x fun k _ => by omega) fun x _ _ => h x fun k _ => by omega

theorem encode_success_rsvdZero {s t : State} {p : Pending} (hp : s.Enabled p) (h : exec .encode s = .next t)
    (herr : t.err = 0x0#4) : RsvdZero t.buf p.op.dst.toNat t.result.toNat := by
  rcases runCommand_next ((exec_encode hp).symm.trans h) with ⟨e, rfl, -⟩ | ⟨runs, -, hruns, -, hcap, rfl⟩
  · exact absurd herr (code_ne_zero e.name)
  · obtain ⟨seq, hseq, rfl⟩ := Option.map_eq_some_iff.mp hruns
    obtain ⟨hlen, -⟩ := readPixels_eq_some.mp hseq
    have hfit : (encodeRuns seq).length < 2 ^ 32 := hcap.trans_lt p.op.dstCap.isLt
    obtain ⟨-, hrsvd⟩ := holdsRuns_write s.buf p.op.dst.toNat (encodeRuns seq)
      (encodeRuns_count_lt (hlen ▸ p.op.lenA.isLt))
    rwa [State.completeOk_result, BitVec.toNat_ofNat, Nat.mod_eq_of_lt hfit]

/-! ## The obligations -/

/-- Settles O36: each invariant of R171 is one of the scan's, started on the first element. -/
theorem encodedRunsAreMaximal : Obligations.EncodedRunsAreMaximal :=
  fun s => ⟨encodeRuns_count_pos s, encodeRuns_counts_sum s, encodeRuns_maximal s, expandRuns_encodeRuns s⟩

/-- Settles O37: an encoding is maximal, and a maximal run sequence is the encoding of its expansion. -/
theorem decodeInvertsEncode : Obligations.DecodeInvertsEncode := by
  refine ⟨fun s => ?_, fun runs hpos => ⟨expandRuns runs, decodeRuns_eq_ok hpos, rfl, fun h => ?_,
    encodeRuns_expandRuns hpos⟩⟩
  · rw [decodeRuns_eq_ok (encodeRuns_count_pos s), expandRuns_encodeRuns]
  · exact h ▸ encodeRuns_maximal (expandRuns runs)

/-- Settles O38: the content check of the runs read names the least zero count. -/
theorem zeroCountIsInvalidRun : Obligations.ZeroCountIsInvalidRun := by
  intro s p runs k hk hp hready hlen hruns hzero hleast
  rw [exec_decode hp]
  exact runCommand_contentError (operandError_decode.mpr hready) (readRuns_eq_some.mpr ⟨hlen, hruns⟩)
    (invalidRunError_eq_some hk hzero hleast)

/-- Settles O39: DECODE's step depends on BUF through the runs it reads, and no read reaches an RSVD byte. -/
theorem rsvdNeverChangesDecode : Obligations.RsvdNeverChangesDecode := by
  refine ⟨fun s t p => encode_success_rsvdZero, fun s p m hp hsame => ?_⟩
  have hp' : ({ s with buf := m } : State).Enabled p := hp
  rw [exec_decode hp, exec_decode hp']
  rcases runCommand_of_same_compute [p.op.operandA .runRecord] (p.op.operandDst .pixel)
    (fun m => readArray (readRun m) 8 p.op.srcA.toNat p.op.lenA.toNat) invalidRunError totalCount
    (fun runs => (expandRuns runs).flatMap pixelBytes) s with ⟨e, hstep⟩ | hstep | ⟨r, bs, hstep⟩
  · rw [hstep s.buf rfl, hstep m (readRuns_congr hsame)]
    refine ⟨nofun, fun t ht => ?_⟩
    cases ht
    exact ⟨_, rfl, rfl, hsame⟩
  · rw [hstep s.buf rfl, hstep m (readRuns_congr hsame)]
    exact ⟨fun _ h => h, nofun⟩
  · rw [hstep s.buf rfl, hstep m (readRuns_congr hsame)]
    refine ⟨nofun, fun t ht => ?_⟩
    cases ht
    refine ⟨_, rfl, rfl, fun a ha => ?_⟩
    simp only [State.completeOk_buf, get_writeBytes, hsame a ha]

end Sys2Proof.Machine
end

section
/-! PROOFS. What the index-wise scan of DIFF lists, that its records turn one sequence into the other, the range of the
delta, and the obligations about the sequence differ (43_differ.md R200 to R204). -/

namespace Sys2Proof.Machine

/-! ## The two answers of diff (R200, R202) -/

theorem diff_of_length_eq {a b : List Pixel} (h : a.length = b.length) : diff a b = .ok (diffFrom 0 a b) := if_pos h

theorem diff_of_length_ne {a b : List Pixel} (h : a.length ≠ b.length) :
    diff a b = .error ⟨.lengthMismatch, 0#32⟩ := if_neg h

theorem length_eq_of_diff_eq_ok {a b : List Pixel} {ds : List DiffRecord} (h : diff a b = .ok ds) :
    a.length = b.length := by
  by_contra hlen
  exact absurd ((diff_of_length_ne hlen).symm.trans h) nofun

/-! ## The scan, by its first elements -/

theorem diffFrom_cons_self (i : Nat) (x : Pixel) (xs ys : List Pixel) :
    diffFrom i (x :: xs) (x :: ys) = diffFrom (i + 1) xs ys := if_pos rfl

theorem diffFrom_cons_of_ne (i : Nat) {x y : Pixel} (xs ys : List Pixel) (h : x ≠ y) :
    diffFrom i (x :: xs) (y :: ys) = ⟨i, x, y, pixelDelta x y⟩ :: diffFrom (i + 1) xs ys := if_neg h

/-! ## What the scan lists (R200) -/

/-- `d` holds the old and the new value and the delta of a difference of `a` and `b` at place `k`. -/
def RecordsDifference (a b : List Pixel) (k : Nat) (d : DiffRecord) : Prop :=
  a[k]? = some d.old ∧ b[k]? = some d.new ∧ d.old ≠ d.new ∧ d.delta = pixelDelta d.old d.new

/-- A difference of the first elements has one record. -/
theorem recordsDifference_zero_iff {i : Nat} {x y : Pixel} {xs ys : List Pixel} {d : DiffRecord} :
    d.index = i ∧ RecordsDifference (x :: xs) (y :: ys) 0 d ↔ x ≠ y ∧ d = ⟨i, x, y, pixelDelta x y⟩ := by
  constructor
  · rintro ⟨rfl, hx, hy, hne, hdelta⟩
    obtain rfl : x = d.old := Option.some.inj hx
    obtain rfl : y = d.new := Option.some.inj hy
    exact ⟨hne, hdelta ▸ rfl⟩
  · rintro ⟨hne, rfl⟩
    exact ⟨rfl, rfl, rfl, hne, rfl⟩

/-- A scan from index `i` on lists the differences of its two sequences, each at its place counted from `i`. -/
theorem mem_diffFrom {i : Nat} {a b : List Pixel} {d : DiffRecord} :
    d ∈ diffFrom i a b ↔ ∃ k, d.index = i + k ∧ RecordsDifference a b k d := by
  induction a generalizing i b with
  | nil => simp [diffFrom, RecordsDifference]
  | cons x xs ih =>
    cases b with
    | nil => simp [diffFrom, RecordsDifference]
    | cons y ys =>
      have hsplit : (∃ k, d.index = i + k ∧ RecordsDifference (x :: xs) (y :: ys) k d) ↔
          (x ≠ y ∧ d = ⟨i, x, y, pixelDelta x y⟩) ∨ d ∈ diffFrom (i + 1) xs ys := by
        rw [← Nat.or_exists_add_one, ih, Nat.add_zero, recordsDifference_zero_iff]
        simp only [RecordsDifference, List.getElem?_cons_succ, Nat.add_right_comm i 1, Nat.add_assoc]
      rw [hsplit]
      by_cases hxy : x = y
      · subst hxy
        simp [diffFrom_cons_self]
      · simp [diffFrom_cons_of_ne i xs ys hxy, hxy]

/-- The scan goes up through the indices, so its records ascend strictly. -/
theorem diffFrom_pairwise_index_lt (i : Nat) (a b : List Pixel) :
    (diffFrom i a b).Pairwise fun d e => d.index < e.index := by
  induction a generalizing i b with
  | nil => exact .nil
  | cons x xs ih =>
    cases b with
    | nil => exact .nil
    | cons y ys =>
      rw [diffFrom]
      split
      · exact ih (i + 1) ys
      · refine .cons (fun e he => ?_) (ih (i + 1) ys)
        obtain ⟨k, hk, -⟩ := mem_diffFrom.mp he
        change i < e.index
        omega

/-- A record of diff(a, b) stands at its own index. -/
theorem mem_diffFrom_zero {a b : List Pixel} {d : DiffRecord} :
    d ∈ diffFrom 0 a b ↔ RecordsDifference a b d.index d := by
  simp only [mem_diffFrom, Nat.zero_add, exists_eq_left']

/-- A sequence differs nowhere from itself. -/
theorem diffFrom_self (a : List Pixel) : diffFrom 0 a a = [] := by
  refine List.eq_nil_iff_forall_not_mem.mpr fun d hd => ?_
  obtain ⟨hold, hnew, hne, -⟩ := mem_diffFrom_zero.mp hd
  exact hne (Option.some.inj (hold.symm.trans hnew))

theorem diff_self (a : List Pixel) : diff a a = .ok [] := by rw [diff_of_length_eq rfl, diffFrom_self]

/-- At an index no record names, sequences of equal length agree: a difference there would have a record. -/
theorem getElem?_eq_of_not_named {a b : List Pixel} (hlen : a.length = b.length) {i : Nat}
    (h : ∀ d ∈ diffFrom 0 a b, d.index ≠ i) : a[i]? = b[i]? := by
  by_cases hi : i < a.length
  · by_contra hne
    have ha : a[i]? = some a[i] := List.getElem?_eq_getElem hi
    have hb : b[i]? = some b[i] := List.getElem?_eq_getElem (hlen ▸ hi)
    have hvalues : a[i] ≠ b[i] := fun heq => hne (by rw [ha, hb, heq])
    exact h ⟨i, a[i], b[i], pixelDelta a[i] b[i]⟩ (mem_diffFrom_zero.mpr ⟨ha, hb, hvalues, rfl⟩) rfl
  · rw [List.getElem?_eq_none (by omega), List.getElem?_eq_none (by omega)]

/-! ## Applying the records (R204) -/

/-- The sequence after one record is applied: `new` at its index. -/
def applyRecord (seq : List Pixel) (d : DiffRecord) : List Pixel := seq.set d.index d.new

/-- A record naming the first element after `pre` replaces that element. -/
theorem applyRecord_append_cons (pre : List Pixel) (x y : Pixel) (xs : List Pixel) (delta : Int) :
    applyRecord (pre ++ x :: xs) ⟨pre.length, x, y, delta⟩ = pre ++ y :: xs := by
  simp [applyRecord]

/-- Applying a scan's records, in order, turns what is still to be scanned of `a` into `b`, after any part `pre` that is
done. -/
theorem foldl_applyRecord_diffFrom (pre : List Pixel) {a b : List Pixel} (hlen : a.length = b.length) :
    (diffFrom pre.length a b).foldl applyRecord (pre ++ a) = pre ++ b := by
  induction a generalizing pre b with
  | nil => rw [List.eq_nil_of_length_eq_zero hlen.symm]; rfl
  | cons x xs ih =>
    cases b with
    | nil => cases hlen
    | cons y ys =>
      have hrest := ih (pre ++ [y]) (Nat.succ.inj hlen)
      rw [List.length_append, List.length_singleton, List.append_assoc, List.append_assoc] at hrest
      by_cases hxy : x = y
      · rw [hxy, diffFrom_cons_self]
        exact hrest
      · rw [diffFrom_cons_of_ne _ xs ys hxy, List.foldl_cons, applyRecord_append_cons]
        exact hrest

/-- With no record to apply, the sequence is already the other one. -/
theorem eq_of_diffFrom_eq_nil {a b : List Pixel} (hlen : a.length = b.length) (h : diffFrom 0 a b = []) : a = b := by
  have happly := foldl_applyRecord_diffFrom [] hlen
  rwa [List.length_nil, h] at happly

/-! ## The delta (R201) -/

theorem pixelDelta_bounds (old new : Pixel) : -65535 ≤ pixelDelta old new ∧ pixelDelta old new ≤ 65535 := by
  have hold := old.isLt
  have hnew := new.isLt
  unfold pixelDelta
  omega

theorem pixelDelta_eq_zero_iff {old new : Pixel} : pixelDelta old new = 0 ↔ old = new := by
  rw [pixelDelta, Int.sub_eq_zero, Int.natCast_inj, BitVec.toNat_inj, eq_comm]

/-- The 32-bit pattern of a delta reads back as it. -/
theorem toInt_ofInt_pixelDelta (old new : Pixel) :
    (BitVec.ofInt 32 (pixelDelta old new)).toInt = pixelDelta old new := by
  obtain ⟨hlow, hhigh⟩ := pixelDelta_bounds old new
  exact BitVec.toInt_ofInt_eq_self (by decide) (by omega) (by omega)

/-- A diff record's DELTA stands at +8, as its 32-bit pattern (R103). -/
theorem memRead_diffBytes_delta (m : Memory) (a : Nat) (d : DiffRecord) :
    memRead (m.writeBytes a (diffBytes d)) (a + 8) 4 = some (BitVec.ofInt 32 d.delta).toNat := by
  have h := memRead_writeBytes_middle m a 4 (BitVec.ofInt 32 d.delta).toNat
    (leBytes 4 d.index ++ leBytes 2 d.old.toNat ++ leBytes 2 d.new.toNat) []
  have hfit : (BitVec.ofInt 32 d.delta).toNat < 256 ^ 4 := (BitVec.ofInt 32 d.delta).isLt
  rwa [Nat.mod_eq_of_lt hfit, List.append_nil, List.length_append, List.length_append, leBytes_length, leBytes_length,
    leBytes_length] at h

/-! ## The obligations -/

/-- Settles O42: the scan lists the differences of the sequences, at their own indices, in the order it meets them. -/
theorem diffListsEveryDifference : Obligations.DiffListsEveryDifference :=
  ⟨fun _ _ => diff_of_length_ne, fun a b hlen =>
    ⟨diffFrom 0 a b, diff_of_length_eq hlen, diffFrom_pairwise_index_lt 0 a b, fun _ => mem_diffFrom_zero⟩⟩

/-- Settles O43: a difference of two 16-bit values fits 32 bits signed, and a record holds its pattern in its last four
bytes. -/
theorem deltaIsExactAndSigned : Obligations.DeltaIsExactAndSigned := by
  refine ⟨fun old new => ?_, memRead_diffBytes_delta, rfl, rfl, rfl, rfl⟩
  obtain ⟨hlow, hhigh⟩ := pixelDelta_bounds old new
  exact ⟨rfl, hlow, hhigh, pixelDelta_eq_zero_iff, toInt_ofInt_pixelDelta old new⟩

/-- Settles O44: the records are applied along the scan, so they give b, and no records means that b is a. -/
theorem diffProperties : Obligations.DiffProperties := by
  refine ⟨diff_self, fun a b => ⟨fun h => ?_, ?_⟩, fun _ _ => diff_of_length_ne, fun a b ds h => ?_⟩
  · exact eq_of_diffFrom_eq_nil (length_eq_of_diff_eq_ok h) (diff_eq_ok h)
  · rintro rfl
    exact diff_self a
  · obtain rfl := diff_eq_ok h
    have hlen := length_eq_of_diff_eq_ok h
    exact ⟨foldl_applyRecord_diffFrom [] hlen, fun _ => getElem?_eq_of_not_named hlen⟩

/-- Settles O45: DIFF compares the lengths before anything else. -/
theorem unequalLengthsMismatch : Obligations.UnequalLengthsMismatch :=
  fun _ _ => exec_diff_mismatch

end Sys2Proof.Machine
end

section
/-! PROOFS. What the registers read right after a reset, and the obligation about reset (70_reset_and_hazards.md
R250). -/

namespace Sys2Proof.Machine

theorem ctrlWord_afterReset (s : State) : s.afterReset.ctrlWord = 0#32 := by
  simp [State.ctrlWord]

theorem statusWord_afterReset (s : State) : s.afterReset.statusWord = 0#32 := by
  simp [State.statusWord, State.busy]

/-- After a reset every register past the two constants ID and CFG reads 0. -/
theorem readReg_afterReset (s : State) {r : Reg} (h : 8 ≤ r.offset) : s.afterReset.readReg r = 0#32 := by
  cases r with
  | id | cfg => exact absurd h (by decide)
  | ctrl => exact ctrlWord_afterReset s
  | status => exact statusWord_afterReset s
  | cmd | srcA | srcB | dst | lenA | lenB | dstCap | result | errInfo => rfl

/-- After a reset every offset past ID and CFG, reserved ones included, reads 0. -/
theorem readOffset_afterReset (s : State) {off : Nat} (h : 8 ≤ off) : s.afterReset.readOffset off = 0#32 := by
  unfold State.readOffset
  cases hr : regAt off with
  | none => rfl
  | some r =>
    obtain rfl := offset_of_regAt hr
    exact readReg_afterReset s h

/-- Settles O29: the step answers the state after reset, whatever is pending; its ID and CFG are the constants of every
state (O11), and every other slot reads 0. -/
theorem resetStep : Obligations.ResetStep := by
  intro s rest _ hwf
  obtain ⟨hid, hcfg⟩ := identityAndConfig (s.issue rest).afterReset
  refine ⟨(s.issue rest).afterReset, rfl, hid, hcfg hwf, fun off hlo hhi ha => ?_, rfl, rfl, fun _ => rfl, rfl, rfl⟩
  rw [hostRead_reg _ hhi ha, readOffset_afterReset _ hlo]

end Sys2Proof.Machine
end

section
/-! PROOFS. The value STATUS reads as, which host accesses are allowed, and the obligations about the encoding, the
register window and the host's accesses that follow (10_state.md, 20_memory.md, 30_encoding.md). -/

namespace Sys2Proof

/-- Settles O1: decoding undoes encoding on every command, and a command is selected by its own word alone. -/
theorem decodeAndEncodeAgree : Obligations.DecodeAndEncodeAgree :=
  ⟨fun i _ => decode_encode i, fun _ _ => encode_of_decode⟩

/-- Settles O3: a sample word of a row is the encoding of its command, and an illegal one fails the decoder's tests. -/
theorem sampleWordsDecode : Obligations.SampleWordsDecode :=
  ⟨decode_encode (.qpix 0xFF#8 0x00#8 0x00#8), decode_encode (.qpix 0x12#8 0x34#8 0x56#8), decode_encode .qbuf,
    decode_encode .encode, decode_encode .decode, decode_encode .diff, rfl, rfl, rfl⟩

end Sys2Proof

namespace Sys2Proof.Machine

/-! ## STATUS as a number (10_state.md R27) -/

theorem busy_toNat (s : State) : s.busy.toNat = if s.pending = none then 0 else 1 := by
  cases hp : s.pending <;> simp [State.busy, hp]

/-- The fields of STATUS stand apart, so its value is their sum. -/
theorem statusWord_toNat (s : State) :
    s.statusWord.toNat = s.busy.toNat + 2 * s.done.toNat + 4 * s.cmdovr.toNat + 256 * s.err.toNat := by
  have hbusy := s.busy.toNat_lt
  have hdone := s.done.toNat_lt
  have hovr := s.cmdovr.toNat_lt
  change (0#20 ++ s.err ++ 0#5 ++ BitVec.ofBool s.cmdovr ++ BitVec.ofBool s.done ++ BitVec.ofBool s.busy).toNat = _
  simp only [BitVec.toNat_append, BitVec.toNat_ofBool, BitVec.toNat_ofNat]
  rw [← Nat.shiftLeft_add_eq_or_of_lt (by omega), ← Nat.shiftLeft_add_eq_or_of_lt (by omega),
    ← Nat.shiftLeft_add_eq_or_of_lt (by omega), ← Nat.shiftLeft_add_eq_or_of_lt (by omega),
    ← Nat.shiftLeft_add_eq_or_of_lt (by omega)]
  simp only [Nat.shiftLeft_eq]
  omega

theorem hostRead_status (s : State) : s.hostRead (.reg 0x0C) 4 = .ok s.statusWord := hostRead_offset s .status

/-- Settles O12: STATUS is the sum of its fields, and BUSY is 1 while PENDING is occupied. -/
theorem statusReadsItsFields : Obligations.StatusReadsItsFields :=
  fun s => ⟨s.statusWord, hostRead_status s, by rw [statusWord_toNat, busy_toNat]⟩

/-- Settles O16: a word access at a register's offset is the access to that register. -/
theorem operandRegistersHoldWords : Obligations.OperandRegistersHoldWords :=
  fun s v => ⟨⟨hostWrite_offset s .srcA v, hostRead_offset s .srcA⟩,
    ⟨hostWrite_offset s .srcB v, hostRead_offset s .srcB⟩, ⟨hostWrite_offset s .dst v, hostRead_offset s .dst⟩,
    ⟨hostWrite_offset s .lenA v, hostRead_offset s .lenA⟩,
    ⟨hostWrite_offset s .lenB v, hostRead_offset s .lenB⟩, ⟨hostWrite_offset s .dstCap v, hostRead_offset s .dstCap⟩,
    hostRead_offset s .result, hostRead_offset s .errInfo⟩

/-! ## Accesses that are faults (20_memory.md R60, R65 to R67) -/

section
variable {s : State} {p q : Place} {w : Nat} {r : Fault}

theorem hostRead_of_access_error (h : s.access p w = .error r) : s.hostRead p w = .error r := by
  simp [State.hostRead, h]

/-- A write faults only where its access is a fault. -/
theorem hostWrite_eq_error_iff (v : Word) : s.hostWrite p w v = .error r ↔ s.access p w = .error r := by
  unfold State.hostWrite
  cases s.access p w <;> simp

/-- An access that is a fault is the same fault for reading and for writing. -/
theorem hostAccess_of_access_error (v : Word) (h : s.access p w = .error r) :
    s.hostRead p w = .error r ∧ s.hostWrite p w v = .error r :=
  ⟨hostRead_of_access_error h, (hostWrite_eq_error_iff v).mpr h⟩

/-- Two places in the same slot are read and written alike. -/
theorem hostAccess_congr (v : Word) (h : Params.locate s.params p = Params.locate s.params q) :
    s.hostRead p w = s.hostRead q w ∧ s.hostWrite p w v = s.hostWrite q w v := by
  have hacc : s.access p w = s.access q w := by rw [State.access, State.access, h]
  exact ⟨by rw [State.hostRead, State.hostRead, hacc], by rw [State.hostWrite, State.hostWrite, hacc]⟩

theorem access_of_locate_none (h : Params.locate s.params p = none) : s.access p w = .error .hostUnmapped := by
  simp [State.access, h]

theorem access_buf_error {a : Nat} (ha : a < s.bufBytes) (h : accessFault s.busy w (.buf a) = some r) :
    s.access (.buf a) w = .error r := by
  have hin : a < s.params.bufBytes := ha
  simp [State.access, Params.locate, hin, h]

theorem access_reg_error {off : Nat} (hoff : off < 0x100) (h : ¬(w = 4 ∧ off % 4 = 0)) :
    s.access (.reg off) w = .error .hostWidth := by
  simp [State.access, Params.locate, regWindowBytes, hoff, accessFault, h]

end

theorem accessFault_busy (w a : Nat) : accessFault true w (.buf a) = some .hostRace := rfl

theorem accessFault_misaligned {w a : Nat} (hw : w = 1 ∨ w = 2 ∨ w = 4) (ha : a % w ≠ 0) :
    accessFault false w (.buf a) = some .hostMisaligned := by
  simp [accessFault, hw, ha]

theorem accessFault_width {w : Nat} (a : Nat) (hw : ¬(w = 1 ∨ w = 2 ∨ w = 4)) :
    accessFault false w (.buf a) = some .hostWidth := by
  simp [accessFault, hw]

/-- An allowed read that meets an unwritten cell is UNINIT_READ. -/
theorem hostRead_buf_unwritten {s : State} {a w k : Nat} (hidle : s.pending = none) (hw : w = 1 ∨ w = 2 ∨ w = 4)
    (ha : a % w = 0) (hlt : a < s.bufBytes) (hk : k < w) (h : s.buf.get (a + k) = none) :
    s.hostRead (.buf a) w = .error .uninitRead := by
  simp [State.hostRead, access_buf hidle hw ha hlt, State.readSlot, memRead_unwritten hk h]

theorem sameOutside_memWrite (m : Memory) (a n v : Nat) : SameOutside m (memWrite m a n v) a n := by
  intro x hx
  exact get_writeBytes_outside (by rwa [leBytes_length])

/-! ## The host's address space (20_memory.md R60) -/

theorem locate_bus_reg (p : Params) {k : Nat} (hk : k < 0x100) :
    Params.locate p (.bus (p.regBase + k)) = Params.locate p (.reg k) := by
  simp [Params.locate, regWindowBytes, hk]

/-- The windows are apart, so an address of the BUF window is none of the register window. -/
theorem locate_bus_buf {p : Params} (happart : p.windowsApart) {a : Nat} (ha : a < p.bufBytes) :
    Params.locate p (.bus (p.bufBase + a)) = Params.locate p (.buf a) := by
  have hreg : ¬(p.regBase ≤ p.bufBase + a ∧ p.bufBase + a < p.regBase + regWindowBytes) := by
    rcases happart with h | h <;> omega
  simp [Params.locate, hreg, ha]

theorem locate_bus_outside {p : Params} {x : Nat} (hreg : ¬(p.regBase ≤ x ∧ x < p.regBase + 0x100))
    (hbuf : ¬(p.bufBase ≤ x ∧ x < p.bufBase + p.bufBytes)) : Params.locate p (.bus x) = none := by
  simp only [Params.locate, regWindowBytes, if_neg hreg, if_neg hbuf]

/-! ## The obligations -/

/-- Settles O23: an access to the register window is refused for its width or its offset alone. -/
theorem registerAccessWidth : Obligations.RegisterAccessWidth := by
  refine fun s off w hoff => ⟨?_, fun h => ?_⟩
  · rintro ⟨rfl, ha⟩
    exact ⟨⟨_, hostRead_reg s hoff ha⟩, fun v => ⟨_, hostWrite_reg s v hoff ha⟩⟩
  · have hacc := access_reg_error (s := s) hoff h
    exact ⟨hostRead_of_access_error hacc, fun v => (hostWrite_eq_error_iff v).mpr hacc⟩

/-- Settles O24: an allowed access reaches its cells, and the faults of an idle BUF access are the width's and the
alignment's. -/
theorem bufAccessWhileIdle : Obligations.BufAccessWhileIdle := by
  intro s a w v hidle hlt
  have hnot : s.busy = false := by simp [State.busy, hidle]
  refine ⟨fun hw ha _ => ⟨⟨_, hostWrite_buf v hidle hw ha hlt, memRead_memWrite .., sameOutside_memWrite _ _ _ _⟩,
    fun x hx => hostRead_buf hidle hw ha hlt hx, fun ⟨k, hk, h⟩ => hostRead_buf_unwritten hidle hw ha hlt hk h⟩,
    fun hw ha => ?_, fun hw _ => ?_⟩
  · exact hostAccess_of_access_error v (access_buf_error hlt (hnot ▸ accessFault_misaligned hw ha))
  · exact hostAccess_of_access_error v (access_buf_error hlt (hnot ▸ accessFault_width a hw))

/-- Settles O25: a race is looked for before the width and the alignment. -/
theorem bufAccessWhileBusyRaces : Obligations.BufAccessWhileBusyRaces := by
  intro s p a w v hp hlt
  have hbusy : s.busy = true := by simp [State.busy, hp]
  exact hostAccess_of_access_error v (access_buf_error hlt (hbusy ▸ accessFault_busy w a))

/-- Settles O27: a host address of a window is the place it stands for, and any other is in no window. -/
theorem hostAddressMap : Obligations.HostAddressMap := by
  rintro s w v ⟨-, -, hapart⟩
  exact ⟨fun k hk => hostAccess_congr v (locate_bus_reg s.params hk),
    fun a ha => hostAccess_congr v (locate_bus_buf hapart ha),
    fun x hreg hbuf => hostAccess_of_access_error v (access_of_locate_none (locate_bus_outside hreg hbuf))⟩

end Sys2Proof.Machine
end

section
/-! PROOFS. What each buffer command's completion leaves, the RANGE check of each, and the obligations about them
(40_command_cycle.md R127, 41_quantizer.md R153, R154, 42_rle_codec.md R173, R176, 43_differ.md R203). -/

namespace Sys2Proof.Machine

/-! ## The quantizer (41_quantizer.md R154) -/

/-- Settles O32: the fields of Q are the channels' high bits, concatenated. -/
theorem quantizerIsIntegerSum : Obligations.QuantizerIsIntegerSum := by
  intro r g b
  have hr := r.isLt
  have hg := g.isLt
  have hb := b.isLt
  rw [quantize_eq_append]
  change (r.extractLsb' 3 5 ++ g.extractLsb' 2 6 ++ b.extractLsb' 3 5).toNat = _
  simp only [BitVec.toNat_append, BitVec.extractLsb'_toNat, Nat.shiftRight_eq_div_pow]
  rw [← Nat.shiftLeft_add_eq_or_of_lt (by omega), ← Nat.shiftLeft_add_eq_or_of_lt (by omega)]
  simp only [Nat.shiftLeft_eq]
  omega

/-! ## Outputs written (40_command_cycle.md R132, R134) -/

theorem succeedsWith_completeOk (s : State) (r : Word) (m : Memory) : SucceedsWith s r (s.completeOk r m) := rfl

/-- A packed output leaves every byte outside its elements as it was. -/
theorem sameOutside_writeElements {α : Type} {f : α → List Byte} {size : Nat} (hf : ∀ x, (f x).length = size)
    (m : Memory) (a : Nat) (l : List α) : SameOutside m (m.writeBytes a (l.flatMap f)) a (size * l.length) := by
  intro x hx
  exact get_writeBytes_outside (by rwa [flatMap_length hf])

/-- What a success leaves in the fields later commands and claims look at. -/
theorem SucceedsWith.fields {s t : State} {r : Word} (h : SucceedsWith s r t) :
    t.err = 0x0#4 ∧ t.result = r ∧ t.fault = s.fault ∧ t.bufBytes = s.bufBytes := by
  unfold SucceedsWith at h
  rw [h]
  exact ⟨rfl, rfl, rfl, rfl⟩

/-- Settles O33: the pixels QBUF computes are the quantized elements, as many as LEN_A. -/
theorem qbufWritesQuantizedPixels : Obligations.QbufWritesQuantizedPixels := by
  intro s p px hp hready hlen hpx hcap
  have hcount : (px.map fun c => quantize c.1 c.2.1 c.2.2).length = px.length := List.length_map _
  refine ⟨_, (exec_qbuf hp).trans (runCommand_ok (operandError_qbuf.mpr hready) (quantizeArray_eq_some hlen hpx) rfl
    (by rw [hcount, hlen]; exact hcap)), ?_, holdsPixels_write _ _ _, ?_⟩
  · rw [hcount, hlen, BitVec.ofNat_toNat, BitVec.setWidth_eq]
    exact succeedsWith_completeOk _ _ _
  · rw [← hcount]
    exact sameOutside_writeElements pixelBytes_length _ _ _

/-- Settles O34: a sequence's runs have counts that fit their field, so the records written hold them. -/
theorem encodeWritesRuns : Obligations.EncodeWritesRuns := by
  intro s p seq hp hready hlen hseq hcap
  obtain ⟨hruns, hrsvd⟩ := holdsRuns_write s.buf p.op.dst.toNat (encodeRuns seq)
    (encodeRuns_count_lt (hlen ▸ p.op.lenA.isLt))
  exact ⟨_, (exec_encode hp).trans (runCommand_ok (operandError_encode.mpr hready)
    (by rw [readPixels_eq_some.mpr ⟨hlen, hseq⟩, Option.map_some]) rfl hcap), succeedsWith_completeOk _ _ _, hruns, hrsvd,
    sameOutside_writeElements runBytes_length _ _ _⟩

/-- Settles O35: with no zero count DECODE writes the expansion, as many pixels as the counts sum to. -/
theorem decodeWritesPixels : Obligations.DecodeWritesPixels := by
  intro s p runs hp hready hlen hruns hpos hcap
  rw [← totalCount_eq_sum] at hcap ⊢
  refine ⟨_, (exec_decode hp).trans (runCommand_ok (operandError_decode.mpr hready)
    (readRuns_eq_some.mpr ⟨hlen, hruns⟩) (invalidRunError_eq_none hpos) hcap), succeedsWith_completeOk _ _ _,
    holdsPixels_write _ _ _, ?_⟩
  rw [← expandRuns_length]
  exact sameOutside_writeElements pixelBytes_length _ _ _

/-- Settles O40: the records ENCODE writes hold the sequence's runs, which DECODE reads and expands to the sequence. -/
theorem roundTripThroughBuf : Obligations.RoundTripThroughBuf := by
  intro s p seq hp hready hlen hseq hcap
  have hfew : (encodeRuns seq).length ≤ seq.length := encodeRuns_length_le seq
  obtain ⟨t, hstep, hsucc, hruns, -, -⟩ := encodeWritesRuns s p seq hp hready hlen hseq (hfew.trans hcap)
  obtain ⟨herr, hresult, hfault, hbytes⟩ := hsucc.fields
  refine ⟨t, hstep, herr, fun w o hsrc hlenA hready' hcap' => ?_⟩
  have hcount : (encodeRuns seq).length = o.lenA.toNat := by
    have hfit : (encodeRuns seq).length < 2 ^ 32 := hfew.trans_lt (hlen ▸ p.op.lenA.isLt)
    rw [hlenA, hresult, BitVec.toNat_ofNat, Nat.mod_eq_of_lt hfit]
  obtain ⟨u, hstep', hsucc', hpixels, -⟩ := decodeWritesPixels { t with pending := some ⟨w, o⟩ } ⟨w, o⟩ (encodeRuns seq)
    ⟨hfault.trans hp.1, rfl⟩ (hbytes ▸ hready') hcount (by rwa [hsrc]) (encodeRuns_count_pos seq)
    (by rwa [encodeRuns_counts_sum])
  obtain ⟨herr', hresult', -, -⟩ := hsucc'.fields
  have hexpand : ((encodeRuns seq).flatMap fun r => List.replicate r.count r.value) = seq := expandRuns_encodeRuns seq
  exact ⟨u, hstep', herr', by rw [hresult', encodeRuns_counts_sum], hexpand ▸ hpixels⟩

/-- A record names an index of the sequences compared. -/
theorem index_lt_of_mem_diffFrom {a b : List Pixel} {d : DiffRecord} (h : d ∈ diffFrom 0 a b) :
    d.index < a.length := by
  obtain ⟨hold, -⟩ := mem_diffFrom_zero.mp h
  obtain ⟨hlt, -⟩ := List.getElem?_eq_some_iff.mp hold
  exact hlt

/-- Settles O41: the records' indices are below LEN_A and fit their field, so the records written hold them. -/
theorem diffWritesRecords : Obligations.DiffWritesRecords := by
  intro s p a b ds hp hready hlenA hlenB ha hb hds hcap
  obtain rfl := diff_eq_ok hds
  obtain ⟨hlen, hchecks⟩ := operandError_diff.mpr hready
  refine ⟨_, (exec_diff hp hlen).trans (runCommand_ok hchecks (diffArrays_eq_some hlenA
    (hlenB.trans (congrArg BitVec.toNat hlen.symm)) ha hb) rfl hcap), succeedsWith_completeOk _ _ _,
    holdsDiffs_write _ _ _ fun d hd => ?_, sameOutside_writeElements diffBytes_length _ _ _⟩
  exact (index_lt_of_mem_diffFrom hd).trans (hlenA ▸ p.op.lenA.isLt)

/-! ## RANGE (40_command_cycle.md R127) -/

theorem inRange_eq_false {bytes base size : Nat} : inRange bytes base size = false ↔ ¬RegionFits bytes base size := by
  rw [← inRange_iff, Bool.not_eq_true]

/-- RANGE comes next once every base is aligned. -/
theorem operandError_of_aligned {bytes : Nat} {srcs : List Operand} {dst : Operand} {e : CmdError}
    (ha : ∀ o ∈ srcs ++ [dst], o.aligned = true)
    (h : firstBad .range (fun o => inRange bytes o.base o.bytes) (srcs ++ [dst]) = some e) :
    operandError bytes srcs dst = some e := by
  simp only [operandError, firstBad_eq_none.mpr ha, h]

/-- RANGE of a command with one source, once its bases are aligned: the source's region is looked at first. -/
theorem exec_range_source (src dst : Elem) {i : Instr} {s : State} {p : Pending} (hp : s.Enabled p)
    (hi : earlyError s.bufBytes p.op i = operandError s.bufBytes [p.op.operandA src] (p.op.operandDst dst))
    (ha : p.op.srcA.toNat % src.align = 0) (hd : p.op.dst.toNat % dst.align = 0) :
    (¬RegionFits s.bufBytes p.op.srcA.toNat (src.size * p.op.lenA.toNat) → exec i s = .next (s.failed 0x5#4 1#32)) ∧
    (RegionFits s.bufBytes p.op.srcA.toNat (src.size * p.op.lenA.toNat) →
      ¬RegionFits s.bufBytes p.op.dst.toNat (dst.size * p.op.dstCap.toNat) →
      exec i s = .next (s.failed 0x5#4 3#32)) := by
  have raise {info : Word} (h : firstBad .range (fun o => inRange s.bufBytes o.base o.bytes)
      [p.op.operandA src, p.op.operandDst dst] = some ⟨.range, info⟩) : exec i s = .next (s.failed 0x5#4 info) :=
    exec_earlyError hp (hi.trans (operandError_of_aligned (by simp [aligned_eq_true, ha, hd]) h))
  refine ⟨fun hA => raise (firstBad_cons_bad ?_),
    fun hA hD => raise ((firstBad_cons_good ?_).trans (firstBad_cons_bad ?_))⟩
  · simpa [inRange_eq_false] using hA
  · simpa [inRange_iff] using hA
  · simpa [inRange_eq_false] using hD

/-- Settles O47: RANGE is the second check, and looks at the regions in id order. -/
theorem regionOutsideBufRaisesRange : Obligations.RegionOutsideBufRaisesRange := by
  refine fun s p hp => ⟨exec_range_source .rgb888 .pixel hp rfl (Nat.mod_one _),
    exec_range_source .pixel .runRecord hp rfl, exec_range_source .runRecord .pixel hp rfl, fun hlen ha hb hd => ?_⟩
  have raise {info : Word} (h : firstBad .range (fun o => inRange s.bufBytes o.base o.bytes)
      [p.op.operandA .pixel, p.op.operandB .pixel, p.op.operandDst .diffRecord] = some ⟨.range, info⟩) :
      exec .diff s = .next (s.failed 0x5#4 info) :=
    exec_earlyError hp ((earlyError_diff hlen).trans
      (operandError_of_aligned (by simp [aligned_eq_true, Elem.align, ha, hb, hd]) h))
  refine ⟨fun hA => raise (firstBad_cons_bad ?_),
    fun hA hB => raise ((firstBad_cons_good ?_).trans (firstBad_cons_bad ?_)),
    fun hA hB hD => raise ((firstBad_cons_good ?_).trans ((firstBad_cons_good ?_).trans (firstBad_cons_bad ?_)))⟩
  · simpa [inRange_eq_false, Elem.size] using hA
  · simpa [inRange_iff, Elem.size] using hA
  · simpa [inRange_eq_false, Elem.size] using hB
  · simpa [inRange_iff, Elem.size] using hA
  · simpa [inRange_iff, Elem.size] using hB
  · simpa [inRange_eq_false, Elem.size] using hD

end Sys2Proof.Machine
end

section
/-! PROOFS. Whose move a step is, what a host step leaves, runs of several steps, and the obligations about the whole
machine (40_command_cycle.md R130, R137, 60_exceptions.md R232, 70_reset_and_hazards.md R255, R271). -/

namespace Sys2Proof.Machine

/-! ## Whose move it is (70_reset_and_hazards.md R271, log 3) -/

theorem step_engine {s : State} {p : Pending} (hp : s.Enabled p) (hturn : s.env.delay = 0 ∨ s.env.script = []) :
    step s = engineStep s := by
  obtain ⟨hf, hpend⟩ := hp
  have hmove : engineMoves s = true := by simpa [engineMoves, State.busy, hpend] using hturn
  simp [step, hf, hmove]

theorem step_host {s : State} {h : HostStep} {rest : List HostStep} (hf : s.fault = none)
    (hturn : s.pending = none ∨ s.env.delay ≠ 0) (hs : s.env.script = h :: rest) :
    step s = performHost h rest s := by
  have hmove : engineMoves s = false := by
    rcases hturn with hidle | hdelay
    · simp [engineMoves, State.busy, hidle]
    · simp [engineMoves, hdelay, hs]
  simp [step, hf, hmove, hostStep, hs]

/-! ## The engine's move -/

/-- Settles O4: the engine's move on a decodable word is its command. -/
theorem stepRunsPendingCommand : Obligations.StepRunsPendingCommand :=
  fun _ _ _ hp hturn hi => (step_engine hp hturn).trans (engineStep_decoded hp hi)

theorem engineStep_ne_refused {s : State} {p : Pending} (hp : s.Enabled p) (r : Refusal) :
    engineStep s ≠ .refused r := by
  rw [engineStep_pending hp]
  cases decode p.cmd with
  | ok i => exact exec_pending_ne_refused hp.2
  | error e => exact nofun

/-- Settles O6: the engine moves only on a pending command, and no host step refuses. -/
theorem stepNeverRefuses : Obligations.StepNeverRefuses := by
  intro s r
  unfold step
  split
  · exact nofun
  · rename_i hf
    split
    · rename_i hmove
      obtain ⟨p, hp⟩ := engineMoves_pending hmove
      exact engineStep_ne_refused ⟨hf, hp⟩ r
    · unfold hostStep
      split
      · exact nofun
      · exact performHost_ne_refused

/-- What every engine step leaves besides its outcome and BUF. -/
theorem engineStep_frame {s t : State} (h : engineStep s = .next t) :
    t.fault = s.fault ∧ t.params = s.params ∧ t.env = s.env := by
  obtain ⟨-, -, ⟨e, rfl⟩ | ⟨r, m, rfl⟩⟩ := engineStep_next h
  · exact ⟨rfl, rfl, rfl⟩
  · exact ⟨rfl, rfl, rfl⟩

theorem engineBlind_env (env : HostSide) : EngineBlind fun s => { s with env := env } where
  fault _ := rfl
  pending _ := rfl
  bufBytes _ := rfl
  buf _ := rfl
  completeError _ _ := rfl
  completeOk _ _ _ := rfl

/-! ## One step as a function of states (60_exceptions.md R232) -/

theorem advance_of_next {s t : State} (h : step s = .next t) : advance s = t := by
  rw [advance, h]

theorem advance_of_fault {s : State} {r : Fault} (h : step s = .fault r) : advance s = { s with fault := some r } := by
  rw [advance, h]
  rfl

/-- Settles O8: FAULT is all that `advance` records. -/
theorem modelFaultKeepsState : Obligations.ModelFaultKeepsState :=
  fun _ _ _ => advance_of_fault

/-- Settles O9: it is the host's move, and it has none. -/
theorem idleKeepsState : Obligations.IdleKeepsState := by
  intro s hf hidle hs
  simp [step, hf, engineMoves, State.busy, hidle, hostStep, hs]

/-! ## What a host step leaves -/

/-- No legal write changes the outcome registers, the parameters or FAULT. -/
theorem writeSlot_frame (s : State) (w : Nat) (v : Word) (slot : Slot) :
    (s.writeSlot w v slot).err = s.err ∧ (s.writeSlot w v slot).result = s.result ∧
      (s.writeSlot w v slot).errInfo = s.errInfo ∧ (s.writeSlot w v slot).params = s.params ∧
      (s.writeSlot w v slot).fault = s.fault := by
  rcases writeSlot_cases s w v slot with ⟨-, ht⟩ | ⟨-, ht⟩ | ⟨ie, ops, buf, ht⟩ <;> rw [ht]
  · unfold State.offer
    split
    · exact ⟨rfl, rfl, rfl, rfl, rfl⟩
    · exact ⟨rfl, rfl, rfl, rfl, rfl⟩
  · exact ⟨rfl, rfl, rfl, rfl, rfl⟩
  · exact ⟨rfl, rfl, rfl, rfl, rfl⟩

/-- Only an acceptance draws a delay, so a write while busy leaves the host's side. -/
theorem writeSlot_busy_env {s : State} (w : Nat) (v : Word) (slot : Slot) (hbusy : s.pending ≠ none) :
    (s.writeSlot w v slot).env = s.env := by
  rcases writeSlot_cases s w v slot with ⟨-, ht⟩ | ⟨-, ht⟩ | ⟨ie, ops, buf, ht⟩ <;> rw [ht]
  · rw [offer_busy v hbusy]
  · rfl

/-- Settles O20: a host step is a write, which leaves the outcome registers, or changes the host's side alone. -/
theorem outcomeWrittenOnlyAtCompletion : Obligations.OutcomeWrittenOnlyAtCompletion := by
  intro s t h hturn hreset hscript
  obtain ⟨hf, -⟩ := step_next h
  obtain ⟨a, rest, hs⟩ := List.exists_cons_of_ne_nil hscript
  rw [step_host hf hturn hs] at h
  rcases performHost_cases h with ⟨rfl, -⟩ | ⟨p, w, v, slot, -, -, rfl⟩ | ⟨env, rfl⟩
  · exact absurd hs (hreset rest)
  · obtain ⟨herr, hresult, hinfo, -, -⟩ := writeSlot_frame (s.issue rest) w v slot
    exact ⟨herr, hresult, hinfo⟩
  · exact ⟨rfl, rfl, rfl⟩

theorem performHost_write (s : State) (rest : List HostStep) (p : Place) (w : Nat) (v : Word) :
    (∀ t, (s.issue rest).hostWrite p w v = .ok t → performHost (.write p w v) rest s = .next t) ∧
      ∀ r, s.hostWrite p w v = .error r → performHost (.write p w v) rest s = .fault r := by
  refine ⟨fun t h => by rw [performHost, h], fun r h => ?_⟩
  rw [hostWrite_eq_error_iff, ← access_issue s rest, ← hostWrite_eq_error_iff v] at h
  rw [performHost, h]

theorem performHost_read (s : State) (rest : List HostStep) (p : Place) (w : Nat) :
    (∀ v, s.hostRead p w = .ok v → performHost (.read p w) rest s = .next ((s.issue rest).logRead v)) ∧
      ∀ r, s.hostRead p w = .error r → performHost (.read p w) rest s = .fault r :=
  ⟨fun v h => by rw [performHost, h], fun r h => by rw [performHost, h]⟩

theorem performHost_wait (s : State) (rest : List HostStep) : performHost .wait rest s =
    .next ((s.issue (if s.pending = none then rest else .wait :: rest)).logRead s.statusWord) := by
  cases hp : s.pending <;> simp [performHost, State.busy, hp]

/-- Settles O22: on the host's move the step is the first of its script. -/
theorem hostStepsAreTakenInOrder : Obligations.HostStepsAreTakenInOrder := by
  intro s rest hf hturn
  have take {a : HostStep} (hs : s.env.script = a :: rest) : step s = performHost a rest s := step_host hf hturn hs
  refine ⟨fun p w v hs => ?_, take, fun hs v hv => ?_, fun p w hs => ?_⟩
  · rw [take hs]
    exact performHost_write s rest p w v
  · obtain rfl : s.statusWord = v := Except.ok.inj ((hostRead_status s).symm.trans hv)
    rw [take hs, performHost_wait]
    rfl
  · rw [take hs]
    exact performHost_read s rest p w

/-! ## Every accepted command completes (40_command_cycle.md R137) -/

/-- A command that is pending completes with the engine's move, or a model fault stops it. -/
theorem advance_engine_completes {s : State} {p : Pending} (hp : s.Enabled p) (hturn : s.env.delay = 0 ∨ s.env.script = []) :
    (advance s).fault ≠ none ∨ ((advance s).pending = none ∧ (advance s).done = true) := by
  have hstep := step_engine hp hturn
  cases he : engineStep s with
  | next t =>
    obtain ⟨hpend, hdone, -⟩ := engineStep_flags he
    rw [advance_of_next (hstep.trans he)]
    exact .inr ⟨hpend, hdone⟩
  | fault r =>
    rw [advance_of_fault (hstep.trans he)]
    exact .inl nofun
  | refused r => exact absurd he (engineStep_ne_refused hp r)

/-- While busy, a host step that is no reset leaves the command pending and uses up one step of its delay. -/
theorem performHost_busy {s t : State} {p : Pending} {h : HostStep} {rest : List HostStep} (hp : s.Enabled p)
    (hreset : h ≠ .reset) (ht : performHost h rest s = .next t) :
    t.Enabled p ∧ t.env.delay = s.env.delay - 1 ∧ ∀ x ∈ t.env.script, x ∈ h :: rest := by
  obtain ⟨hf, hpend⟩ := hp
  have hbusy : s.pending ≠ none := by simp [hpend]
  rcases performHost_next ht with ⟨q, w, v, rfl, -, rfl⟩ | ⟨q, w, v, slot, rfl, -, rfl⟩ | ⟨rfl, rfl⟩ | ⟨rfl, -⟩
  · exact ⟨⟨hf, hpend⟩, rfl, fun x => List.mem_cons_of_mem _⟩
  · obtain ⟨-, -, -, -, hfault⟩ := writeSlot_frame (s.issue rest) w v slot
    have hkeep : ((s.issue rest).writeSlot w v slot).pending = s.pending := writeSlot_pending (.inr hbusy)
    have henv := writeSlot_busy_env (s := s.issue rest) w v slot hbusy
    exact ⟨⟨hfault.trans hf, hkeep.trans hpend⟩, by rw [henv]; rfl,
      by rw [henv]; exact fun x => List.mem_cons_of_mem _⟩
  · refine ⟨⟨hf, hpend⟩, rfl, fun x hx => ?_⟩
    rwa [State.logRead_script, State.issue_script, if_pos ((State.busy_eq_true s).mpr hbusy)] at hx
  · exact absurd rfl hreset

/-- Settles O57, by induction on the delay: each host step uses up one of it, and then it is the engine's move. -/
theorem pendingCommandCompletes : Obligations.PendingCommandCompletes := by
  intro s p hp hreset
  induction hd : s.env.delay generalizing s with
  | zero => exact ⟨1, Nat.le_refl 1, advance_engine_completes hp (.inl hd)⟩
  | succ k ih =>
    cases hs : s.env.script with
    | nil => exact ⟨1, Nat.le_add_left 1 _, advance_engine_completes hp (.inr hs)⟩
    | cons a rest =>
      rw [hs] at hreset
      have hstep := step_host hp.1 (.inr (by omega)) hs
      cases hperf : performHost a rest s with
      | next t =>
        obtain ⟨hp', hdelay, hscript⟩ := performHost_busy hp (hreset a List.mem_cons_self) hperf
        obtain ⟨n, hn, hdone⟩ := ih t hp' (fun x hx => hreset x (hscript x hx)) (by omega)
        refine ⟨n + 1, Nat.succ_le_succ hn, ?_⟩
        rwa [advanceBy, advance_of_next (hstep.trans hperf)]
      | fault r =>
        refine ⟨1, Nat.le_add_left 1 _, .inl ?_⟩
        rw [advanceBy, advance_of_fault (hstep.trans hperf)]
        exact nofun
      | refused r => exact absurd hperf performHost_ne_refused

/-! ## A WAIT loop (70_reset_and_hazards.md R271) -/

/-- On the host's move a WAIT reads STATUS once, and stays while a command is pending. -/
theorem advance_wait {s : State} {rest : List HostStep} (hf : s.fault = none)
    (hturn : s.pending = none ∨ s.env.delay ≠ 0) (hs : s.env.script = .wait :: rest) :
    advance s = (s.issue (if s.pending = none then rest else .wait :: rest)).logRead s.statusWord :=
  advance_of_next ((step_host hf hturn hs).trans (performHost_wait s rest))

/-- Settles O58, by induction on the delay: each read while busy uses up one of it and is noted with the same STATUS;
then the engine moves, and the next read ends the loop. -/
theorem waitEndsAfterCompletion : Obligations.WaitEndsAfterCompletion := by
  intro k s t p rest hp hd hs ht
  obtain ⟨hempty, -⟩ := engineStep_flags ht
  refine ⟨(statusWord_busy_eq_true s).mpr (by simp [hp.2]), (statusWord_busy_eq_false t).mpr hempty, ?_⟩
  induction k generalizing s t with
  | zero =>
    obtain ⟨hfault, -, henv⟩ := engineStep_frame ht
    have hlast := advance_wait (hfault.trans hp.1) (.inl hempty) (henv ▸ hs)
    rw [advanceBy, advance_of_next ((step_engine hp (.inl hd)).trans ht), advanceBy, hlast, if_pos hempty, ← henv,
      List.replicate_zero, List.nil_append]
    simp [advanceBy, State.issue, State.logRead, henv, hd]
  | succ k ih =>
    have hfirst := advance_wait hp.1 (.inr (by omega)) hs
    rw [if_neg (by simp [hp.2])] at hfirst
    have hengine := engineStep_blind_next (engineBlind_env ((s.issue (.wait :: rest)).logRead s.statusWord).env) ht
    have hrest := ih ((s.issue (.wait :: rest)).logRead s.statusWord) _ hp (by simp [hd]) rfl hengine hempty
    rw [advanceBy, hfirst, hrest, List.replicate_succ', List.append_assoc]
    rfl

/-! ## Two CMD writes in a row (70_reset_and_hazards.md R255) -/

theorem drawDelay_script (h : HostSide) : h.drawDelay.script = h.script := by
  unfold HostSide.drawDelay
  split
  · rfl
  · rfl

/-- On the host's move a CMD write offers its word. -/
theorem advance_cmd {s : State} {w : Word} {rest : List HostStep} (hf : s.fault = none)
    (hturn : s.pending = none ∨ s.env.delay ≠ 0) (hs : s.env.script = .write (.reg 0x10) 4 w :: rest) :
    advance s = (s.issue rest).offer w :=
  advance_of_next ((step_host hf hturn hs).trans ((performHost_write s rest _ 4 w).1 _ (hostWrite_cmd _ w)))

/-- Settles O59: the second write is the host's next step while a delay is left, else it comes after the engine's
move, which leaves PENDING empty. -/
theorem backToBackCommands : Obligations.BackToBackCommands := by
  intro s w₁ w₂ rest hf hidle hs
  have hfirst := (advance_cmd hf (.inl hidle) hs).trans (offer_idle w₁ hidle)
  have hf' : (advance s).fault = none := by rw [hfirst]; exact hf
  have hpend : (advance s).pending = some ⟨w₁, s.ops⟩ := by rw [hfirst]; rfl
  have hs' : (advance s).env.script = .write (.reg 0x10) 4 w₂ :: rest := by
    rw [hfirst, State.accept_env, drawDelay_script]
    rfl
  refine ⟨hpend, fun hdelay => ?_, fun hdelay t ht => ?_⟩
  · have hbusy : ((advance s).issue rest).pending ≠ none := by simp [hpend]
    have hsecond := (advance_cmd hf' (.inr hdelay) hs').trans (offer_busy w₂ hbusy)
    rw [advanceBy, advanceBy, hsecond]
    exact ⟨hpend, rfl⟩
  · obtain ⟨hempty, -, hovr, -⟩ := engineStep_flags ht
    obtain ⟨hfault, -, henv⟩ := engineStep_frame ht
    obtain ⟨hops, -⟩ := engineStep_keeps_ops_ie ht
    have hengine : advance (advance s) = t := advance_of_next ((step_engine ⟨hf', hpend⟩ (.inl hdelay)).trans ht)
    have hsecond := (advance_cmd (hfault.trans hf') (.inl hempty) (henv ▸ hs')).trans (offer_idle w₂ hempty)
    have hkept : t.ops = s.ops ∧ t.cmdovr = s.cmdovr := by
      rw [hops, hovr, hfirst]
      exact ⟨rfl, rfl⟩
    obtain ⟨hops', hovr'⟩ := hkept
    rw [advanceBy, advanceBy, advanceBy, advanceBy, hengine, hsecond]
    exact ⟨by rw [State.accept_pending, State.issue_ops, hops'], hovr', rfl, rfl⟩

end Sys2Proof.Machine
end

section
/-! PROOFS. What keeps the invariant, and the obligations about it (10_state.md R50, 60_exceptions.md R229). -/

namespace Sys2Proof.Machine

/-! ## The engine's completions (40_command_cycle.md R131, R132) -/

section
variable {s t : State} (h : s.Inv)
include h

theorem completeError_keeps_inv {e : CmdError} (he : e.Fits) : (s.completeError e).Inv where
  params := h.params
  canonical := h.canonical
  inside := h.inside
  legalErr := code_legal e.name
  outcome := he

theorem completeOk_keeps_inv (r : Word) {m : Memory} (hwf : m.wf) (hin : ∀ c ∈ m, c.1 < s.bufBytes) :
    (s.completeOk r m).Inv where
  params := h.params
  canonical := hwf
  inside := hin
  legalErr := (by decide : LegalErr 0x0#4)
  outcome := by simp [OutcomeFits]

/-- A command's output lies in its capacity region, which the RANGE check found inside BUF. -/
theorem writesOutput_keeps_inv {i : Instr} {p : Pending} (hw : WritesOutput i s t p) : t.Inv := by
  obtain ⟨⟨r, m, rfl⟩, hbuf⟩ := hw
  rw [State.completeOk_buf] at hbuf
  rcases hbuf with rfl | ⟨bs, n, rfl, hlen, -, hcap, hfits⟩
  · exact completeOk_keeps_inv h r h.canonical h.inside
  · have hsize : bs.length ≤ p.op.dstCap.toNat * outputSize i := by
      rw [hlen, Nat.mul_comm]
      exact Nat.mul_le_mul_right _ hcap
    refine completeOk_keeps_inv h r (writeBytes_wf _ _ h.canonical) (writeBytes_inside h.inside ?_)
    rcases hfits with hzero | hle
    · exact .inl (List.eq_nil_of_length_eq_zero (by omega))
    · exact .inr (by omega)

theorem exec_keeps_inv {i : Instr} (ht : exec i s = .next t) : t.Inv := by
  obtain ⟨p, -, ⟨e, he, rfl⟩ | hw⟩ := exec_next ht
  · exact completeError_keeps_inv h he
  · exact writesOutput_keeps_inv h hw

theorem engineStep_keeps_inv (ht : engineStep s = .next t) : t.Inv := by
  obtain ⟨p, hp, -⟩ := withPending_next ht
  rw [engineStep_pending hp] at ht
  cases hd : decode p.cmd with
  | ok i => exact exec_keeps_inv h (by simpa [hd] using ht)
  | error e =>
    obtain rfl : s.completeError ⟨.illegalCmd, 0#32⟩ = t := by simpa [hd] using ht
    exact completeError_keeps_inv h (by decide)

/-! ## The host's steps -/

theorem issue_keeps_inv (rest : List HostStep) : (s.issue rest).Inv :=
  ⟨h.params, h.canonical, h.inside, h.legalErr, h.outcome⟩

theorem afterReset_inv : s.afterReset.Inv where
  params := h.params
  canonical := .nil
  inside := nofun
  legalErr := (by decide : LegalErr 0x0#4)
  outcome := (by decide : OutcomeFits 0x0#4 0#32 0#32)

/-- An aligned access that starts inside BUF ends inside it, since its width divides BUF_BYTES. -/
theorem access_fits {a w : Nat} (hw : w = 1 ∨ w = 2 ∨ w = 4) (ha : a % w = 0) (hlt : a < s.bufBytes) :
    a + w ≤ s.bufBytes := by
  obtain ⟨haw, -, -⟩ := h.params
  obtain ⟨q, hq⟩ : 4 ∣ s.bufBytes := pow_dvd_pow 2 (by omega : 2 ≤ s.params.bufAw)
  rw [hq] at hlt ⊢
  rcases hw with rfl | rfl | rfl <;> omega

/-- A legal write keeps the invariant: a register write leaves BUF, and a BUF write stays inside it. -/
theorem writeSlot_keeps_inv {p : Place} {w : Nat} (v : Word) {slot : Slot} (hacc : s.access p w = .ok slot) :
    (s.writeSlot w v slot).Inv := by
  obtain ⟨herr, hresult, hinfo, hparams, -⟩ := writeSlot_frame s w v slot
  have hbuf : (s.writeSlot w v slot).buf.wf ∧ ∀ c ∈ (s.writeSlot w v slot).buf, c.1 < s.bufBytes := by
    rcases access_eq_ok hacc with ⟨off, rfl, -⟩ | ⟨a, rfl, -, hw, ha, hlt⟩
    · rw [State.writeSlot, writeOffset_buf]
      exact ⟨h.canonical, h.inside⟩
    · have hfits := access_fits h hw ha hlt
      exact ⟨memWrite_wf a w v.toNat h.canonical, writeBytes_inside h.inside (.inr (by rwa [leBytes_length]))⟩
  obtain ⟨hwf, hin⟩ := hbuf
  exact ⟨hparams ▸ h.params, hwf, by rwa [State.bufBytes, hparams], herr ▸ h.legalErr, by
    rw [herr, hresult, hinfo]; exact h.outcome⟩

end

/-! ## The obligations -/

/-- Settles O55: the engine's move, a reset and a legal write keep the invariant, which says nothing about the host's
side. -/
theorem stepKeepsInvariant : Obligations.StepKeepsInvariant := by
  intro s t h hstep
  rcases step_cases hstep with ⟨-, he⟩ | ⟨rest, -, rfl⟩ | ⟨p, w, v, rest, slot, -, hacc, rfl⟩ | ⟨env, rfl⟩
  · exact engineStep_keeps_inv h he
  · exact afterReset_inv (issue_keeps_inv h rest)
  · exact writeSlot_keeps_inv (issue_keeps_inv h rest) v hacc
  · exact ⟨h.params, h.canonical, h.inside, h.legalErr, h.outcome⟩

/-- Settles O56: the standard parameters are legal, and the rest is empty or zero. -/
theorem resetMeetsInvariant : Obligations.ResetMeetsInvariant where
  params := by decide
  canonical := .nil
  inside := nofun
  legalErr := by decide
  outcome := by decide

end Sys2Proof.Machine
end
